-- ==== Sys2Proof/Word.lean ====
section
/-! DEFINITION. The word types of the AP2 core (00_scope.md R6, R9): the 32-bit machine word, the byte of a memory
cell, and the index of one of the eight general registers. -/

namespace Sys2Proof

/-- The machine word: registers, memory words, instructions, pc and addresses (R6, R9). -/
abbrev Word := BitVec 32

/-- The unit of a memory cell of Host.Core; no instruction sees one (R54, R55). -/
abbrev Byte := BitVec 8

/-- A register index, 0 to 7 (R20, R73). -/
abbrev RegIdx := Fin 8

/-- The immediate field before extension, `imm16` (R70). -/
abbrev Imm16 := BitVec 16

end Sys2Proof
end

