-- ==== Sys2Proof/Config.lean ====
section
/-! DEFINITION. The implementation parameters of the AP2 core: `MEM_SIZE` (00_scope.md R3), `COST` (R4) and
`DEST_POLICY` (R5), with the spec's defaults. They are fixed for one machine. State carries them and no step changes
them, so that every statement holds for every value of them (log entry 2). Nothing is opaque: the spec leaves no value
free (93_implementation_defined.md section 1). -/

namespace Sys2Proof

/-- The eight opcodes (00_scope.md R2). -/
inductive Opcode where
  | add | nand | lw | sw | beq | jalr | halt | noop
  deriving DecidableEq, Repr

/-- `COST`: one natural number for each opcode (R4). Plain data, read through `Cost.of`. -/
structure Cost where
  add : Nat
  nand : Nat
  lw : Nat
  sw : Nat
  beq : Nat
  jalr : Nat
  halt : Nat
  noop : Nat
  deriving DecidableEq, Repr

/-- `COST[op]` (R4). -/
def Cost.of (c : Cost) : Opcode → Nat
  | .add => c.add
  | .nand => c.nand
  | .lw => c.lw
  | .sw => c.sw
  | .beq => c.beq
  | .jalr => c.jalr
  | .halt => c.halt
  | .noop => c.noop

/-- The source's "canonical costing", the default of `COST` (R4, R187). -/
def Cost.canonical : Cost :=
  { add := 2, nand := 2, lw := 2, sw := 2, beq := 4, jalr := 1, halt := 1, noop := 1 }

/-- `DEST_POLICY`: what ADD and NAND do with a destination outside 0 to 7 (R5, R112). -/
inductive DestPolicy where
  /-- Raise BadDestination (the default). -/
  | fault
  /-- Write the register that the low three bits of the immediate name. -/
  | mask3
  deriving DecidableEq, Repr

/-- The parameters of one machine. -/
structure Config where
  /-- `MEM_SIZE`, the number of words in the memory array (R3). -/
  memSize : Nat
  /-- `COST`, the cycle-cost table (R4). -/
  cost : Cost
  /-- `DEST_POLICY` (R5). -/
  destPolicy : DestPolicy
  deriving DecidableEq, Repr

/-- The legal values of `MEM_SIZE`: `1 <= MEM_SIZE <= 2^31` (R3). -/
abbrev Config.legal (c : Config) : Prop := 1 ≤ c.memSize ∧ c.memSize ≤ 2 ^ 31

/-- The spec's defaults: 65536 words (R3), the canonical costing (R4), FAULT (R5). -/
def Config.default : Config :=
  { memSize := 65536, cost := Cost.canonical, destPolicy := .fault }

end Sys2Proof
end

