-- ==== Sys2Proof/Syntax.lean ====
section
/-! DEFINITION. The instructions: one constructor for each row of spec/opcode_table.json (00_scope.md R2). Every
constructor keeps every field the decoder delivers, the ignored ones too (30_encoding.md R71, R78, R79), so that
decoding loses no bit below bit 25. -/

namespace Sys2Proof

/-- An instruction word without its ignored bits 31 to 25. The fields are regA (21:19), regB (18:16) and imm16 (15:0)
of the one layout of R70, in that order. -/
inductive Instr where
  /-- ADD (R113): regA and regB are the sources; imm16 names the destination (R75). -/
  | add (regA regB : RegIdx) (imm16 : Imm16)
  /-- NAND (R114): operands as ADD. -/
  | nand (regA regB : RegIdx) (imm16 : Imm16)
  /-- LW (R122): regA is the destination, regB the base, imm16 the offset. -/
  | lw (regA regB : RegIdx) (imm16 : Imm16)
  /-- SW (R123): regA is the data source, regB the base, imm16 the offset. -/
  | sw (regA regB : RegIdx) (imm16 : Imm16)
  /-- BEQ (R131): regA and regB are compared; imm16 is the offset. -/
  | beq (regA regB : RegIdx) (imm16 : Imm16)
  /-- JALR (R132): regA is the link, regB the target; imm16 is ignored. -/
  | jalr (regA regB : RegIdx) (imm16 : Imm16)
  /-- HALT (R140): every field is ignored. -/
  | halt (regA regB : RegIdx) (imm16 : Imm16)
  /-- NOOP (R141): every field is ignored. -/
  | noop (regA regB : RegIdx) (imm16 : Imm16)
  deriving DecidableEq, Repr

end Sys2Proof
end

