-- ==== Sys2Proof/WellFormed.lean ====
section
/-! DEFINITION. The canonical instructions of 30_encoding.md R82: those whose unused fields are zero and whose ADD or
NAND destination fits three bits. This is a property of the syntax only. It is NO condition of execution: a word with
other bits set in an ignored field decodes and executes all the same (R78, R79, R80). -/

namespace Sys2Proof

/-- The destination immediate has `imm16[15:3] = 0`, so it names a register (R75, R82). -/
def destFits (imm16 : Imm16) : Bool := imm16.toNat < 8

/-- Both register fields are zero. -/
def regsUnused (regA regB : RegIdx) : Bool := regA = 0 && regB = 0

/-- The instruction is in the canonical form of R82. -/
def Instr.wf : Instr → Bool
  | .add _ _ imm16 => destFits imm16
  | .nand _ _ imm16 => destFits imm16
  | .lw _ _ _ => true
  | .sw _ _ _ => true
  | .beq _ _ _ => true
  | .jalr _ _ imm16 => imm16 = 0
  | .halt regA regB imm16 => regsUnused regA regB && imm16 = 0
  | .noop regA regB imm16 => regsUnused regA regB && imm16 = 0

end Sys2Proof
end

