-- ==== Sys2Proof/Decode.lean ====
section
/-! DEFINITION. The decoder block and the encoding function (30_encoding.md): the bit fields of R70 to R75, the decoder's
ports (R71), decoding (R76, R77), and after it the encoder (R82). Also the split of a word into the four bytes that
Host.Core's memory cells hold (log entry 1). -/

namespace Sys2Proof

/-! ### Words as bytes -/

/-- Byte `k` of a word, byte 0 the least significant. DESIGN CHOICE, safe: no access is narrower than a word, so no
byte order can be observed (20_memory.md R55; log entry 1). -/
def byteOfWord (w : Word) (k : Nat) : Byte := w.extractLsb' (8 * k) 8

/-- The word whose bytes 0 to 3 are `b0` to `b3` (log entry 1). -/
def wordOfBytes (b0 b1 b2 b3 : Byte) : Word := b3 ++ b2 ++ b1 ++ b0

/-! ### Fields -/

/-- `opcode = w[24:22]` (R72). -/
def opcodeField (w : Word) : BitVec 3 := w.extractLsb' 22 3

/-- `regA = w[21:19]` (R73). -/
def regAField (w : Word) : RegIdx := (w.extractLsb' 19 3).toFin

/-- `regB = w[18:16]` (R73). -/
def regBField (w : Word) : RegIdx := (w.extractLsb' 16 3).toFin

/-- `imm16 = w[15:0]` (R74). -/
def imm16Field (w : Word) : Imm16 := w.extractLsb' 0 16

/-- `imm = sext_32(imm16)`: bits 31 to 16 copy bit 15 (00_scope.md R9, R74). -/
def sext32 (imm16 : Imm16) : Word := imm16.signExtend 32

/-- `dest = imm16[2:0]` (R75). -/
def destOf (imm16 : Imm16) : RegIdx := (imm16.extractLsb' 0 3).toFin

/-- `dest_ok`: `imm16[15:3] = 0` (R75). -/
def destOk (imm16 : Imm16) : Bool := imm16.extractLsb' 3 13 = 0

/-! ### The opcode map -/

/-- The opcode selects the instruction (R77); every value is defined (R76). -/
def Opcode.ofBits (v : BitVec 3) : Opcode :=
  match v.toFin with
  | 0 => .add
  | 1 => .nand
  | 2 => .lw
  | 3 => .sw
  | 4 => .beq
  | 5 => .jalr
  | 6 => .halt
  | 7 => .noop

/-- The number of an opcode (00_scope.md R2, R77). -/
def Opcode.bits : Opcode → BitVec 3
  | .add => 0
  | .nand => 1
  | .lw => 2
  | .sw => 3
  | .beq => 4
  | .jalr => 5
  | .halt => 6
  | .noop => 7

/-- The opcode of an instruction. -/
def Instr.opcode : Instr → Opcode
  | .add _ _ _ => .add
  | .nand _ _ _ => .nand
  | .lw _ _ _ => .lw
  | .sw _ _ _ => .sw
  | .beq _ _ _ => .beq
  | .jalr _ _ _ => .jalr
  | .halt _ _ _ => .halt
  | .noop _ _ _ => .noop

/-- The register field regA of an instruction. -/
def Instr.regA : Instr → RegIdx
  | .add a _ _ | .nand a _ _ | .lw a _ _ | .sw a _ _ | .beq a _ _ | .jalr a _ _ | .halt a _ _ | .noop a _ _ => a

/-- The register field regB of an instruction. -/
def Instr.regB : Instr → RegIdx
  | .add _ b _ | .nand _ b _ | .lw _ b _ | .sw _ b _ | .beq _ b _ | .jalr _ b _ | .halt _ b _ | .noop _ b _ => b

/-- The immediate field of an instruction, before extension. -/
def Instr.imm16 : Instr → Imm16
  | .add _ _ i | .nand _ _ i | .lw _ _ i | .sw _ _ i | .beq _ _ i | .jalr _ _ i | .halt _ _ i | .noop _ _ i => i

/-- The instruction of an opcode and the three operand fields. -/
def Instr.ofFields (op : Opcode) (a b : RegIdx) (imm16 : Imm16) : Instr :=
  match op with
  | .add => .add a b imm16
  | .nand => .nand a b imm16
  | .lw => .lw a b imm16
  | .sw => .sw a b imm16
  | .beq => .beq a b imm16
  | .jalr => .jalr a b imm16
  | .halt => .halt a b imm16
  | .noop => .noop a b imm16

/-! ### The decoder -/

/-- The output ports of the decoder block (R71). -/
structure DecoderOut where
  opcode : BitVec 3
  regA : RegIdx
  regB : RegIdx
  imm16 : Imm16
  imm : Word
  dest : RegIdx
  destOk : Bool
  isAdd : Bool
  isNand : Bool
  isLw : Bool
  isSw : Bool
  isBeq : Bool
  isJalr : Bool
  isHalt : Bool
  isNoop : Bool
  illegal : Bool
  deriving DecidableEq, Repr

/-- What the decoder drives on its output ports for the word `w` (R71). -/
def decoderPorts (w : Word) : DecoderOut :=
  { opcode := opcodeField w
    regA := regAField w
    regB := regBField w
    imm16 := imm16Field w
    imm := sext32 (imm16Field w)
    dest := destOf (imm16Field w)
    destOk := destOk (imm16Field w)
    isAdd := Opcode.ofBits (opcodeField w) = .add
    isNand := Opcode.ofBits (opcodeField w) = .nand
    isLw := Opcode.ofBits (opcodeField w) = .lw
    isSw := Opcode.ofBits (opcodeField w) = .sw
    isBeq := Opcode.ofBits (opcodeField w) = .beq
    isJalr := Opcode.ofBits (opcodeField w) = .jalr
    isHalt := Opcode.ofBits (opcodeField w) = .halt
    isNoop := Opcode.ofBits (opcodeField w) = .noop
    illegal := false }

/-- Decoding a fetched word. It never fails (R76) and never looks at bits 31 to 25 (R78). -/
def decode (w : Word) : Instr :=
  Instr.ofFields (Opcode.ofBits (opcodeField w)) (regAField w) (regBField w) (imm16Field w)

/-- Why a list of bytes holds no instruction. -/
inductive DecodeError where
  /-- Fewer than the four bytes of a word are left. An instruction is always exactly one word (R81). -/
  | shortWord
  deriving DecidableEq, Repr

/-- Decoding from bytes, lowest address first: the instruction of the first word, and the bytes after it. -/
def decodeBytes : List Byte → Except DecodeError (Instr × List Byte)
  | b0 :: b1 :: b2 :: b3 :: rest => .ok (decode (wordOfBytes b0 b1 b2 b3), rest)
  | _ => .error .shortWord

/-! ### The encoder -/

/-- `enc(op, a, b, imm16)`: seven zero bits, then the fields (R82). -/
def enc (op : BitVec 3) (a b : RegIdx) (imm16 : Imm16) : Word :=
  (0 : BitVec 7) ++ op ++ BitVec.ofNat 3 a.val ++ BitVec.ofNat 3 b.val ++ imm16

/-- The word of an instruction; canonical when the instruction is well-formed (R82). -/
def encode (i : Instr) : Word := enc i.opcode.bits i.regA i.regB i.imm16

/-! ### The opcode table's numbering -/

/-- The word in which the table numbers the bits of a row: bits from `nbits` on are zero. -/
def tableWord (nbits w : Nat) : Word := BitVec.ofNat 32 (w % 2 ^ nbits)

/-- What the decoder reads from an instruction whose bits are `w`, numbered as spec/opcode_table.json numbers them. The
word is laid out as its four bytes and given to `decodeBytes`. -/
def decodeTableWord (nbits w : Nat) : Option Instr :=
  let v := tableWord nbits w
  match decodeBytes [byteOfWord v 0, byteOfWord v 1, byteOfWord v 2, byteOfWord v 3] with
  | .ok (i, _) => some i
  | .error _ => none

end Sys2Proof
end

