-- ==== Sys2Proof/Machine/State.lean ====
section
/-! DEFINITION. The state of the AP2 core as plain data (10_state.md section 1), the events of a run (40_execution_cycle.md
R99), the exceptions (60_exceptions.md R151), the reasons a step can stop, and the state after reset (10_state.md R37). -/

namespace Sys2Proof.Machine

/-- The FSM states that `status` holds (10_state.md R30). Values 5 to 7 are never held, so they are not here. -/
inductive Status where
  /-- The FSM executes steps. -/
  | running
  /-- A HALT completed. -/
  | halted
  /-- An illegal opcode was found. No step enters it (30_encoding.md R76). -/
  | errIllegalOpcode
  /-- A fetch, LW or SW address was outside the memory. -/
  | errOutOfBounds
  /-- ADD or NAND named a destination outside 0 to 7 under `DEST_POLICY = FAULT`. -/
  | errBadDest
  deriving DecidableEq, Repr

/-- The exceptions (60_exceptions.md R151). -/
inductive Exc where
  /-- Raised by the fetch of any step, LW and SW. -/
  | outOfBounds
  /-- Raised by ADD and NAND. -/
  | badDestination
  /-- Raised by nothing (30_encoding.md R76). -/
  | illegalOpcode
  deriving DecidableEq, Repr

/-- `E(info)` of `raise E(info)`: an exception with the value it records (60_exceptions.md R151, R152). -/
structure Raised where
  exc : Exc
  info : Word
  deriving DecidableEq, Repr

/-- The events a run emits (00_scope.md R10, 40_execution_cycle.md R99). -/
inductive Event where
  /-- The state snapshot before each instruction: pc, `M[0 .. used_len-1]` and `x[0..7]` (40_execution_cycle.md R95). -/
  | snapshot (pc : Word) (memory : List Word) (regs : Vector Word 8)
  /-- The machine halted (44_system.md R140). -/
  | halted
  /-- A step raised (60_exceptions.md R152). -/
  | error (e : Exc) (info : Word)
  deriving DecidableEq, Repr

/-- The memory array as a list of cells. Word `i` of `M` is the four cells `4 * i` to `4 * i + 3` (log entry 1). -/
abbrev Memory := List Host.Cell

/-- What a cell that the list does not name reads as: memory is zero where nothing was loaded or stored
(10_state.md R37, 70_reset_and_hazards.md R180). -/
def Memory.unlisted : Byte := 0

/-- The canonical form: addresses strictly rising, and no cell listed that holds what an unlisted one reads as. -/
abbrev Memory.wf (m : Memory) : Prop :=
  m.Pairwise (fun c d => c.1 < d.1) ∧ ∀ c ∈ m, c.2 ≠ Memory.unlisted

/-- The state of the core (10_state.md section 1). -/
structure State where
  /-- The implementation parameters. No step writes them (00_scope.md R3 to R5; log entry 2). -/
  cfg : Config
  /-- The general registers `x[0]` to `x[7]` (R20). None is hardwired (R21). -/
  regs : Vector Word 8
  /-- The program counter, a word address (R25). -/
  pc : Word
  /-- The memory array `M`, instructions and data (R28). -/
  mem : Memory
  /-- `used_len`, set at load and read by the snapshot only (R29). -/
  usedLen : Nat
  /-- `status`, the FSM state (R30). -/
  status : Status
  /-- `instr_count`, the completed instructions (R32). -/
  instrCount : Nat
  /-- `cycle_count`, the sum of their costs (R33). -/
  cycleCount : Nat
  /-- `fault_info`, what the last exception recorded (R34). -/
  faultInfo : Word
  /-- The events emitted since reset release, oldest first (40_execution_cycle.md R99; log entry 3). -/
  trace : List Event
  deriving DecidableEq, Repr

/-- Why a step stops without a next state. No instruction raises one: every exception of the spec is a next state. -/
inductive Fault where
  /-- Raised by `step` alone, in a state with `used_len > MEM_SIZE`: its Snapshot would read words that do not exist
  (10_state.md R28, R29, 40_execution_cycle.md R95). Safe: the model stops, and no launch it accepts leads there
  (70_reset_and_hazards.md R183; log entry 6). -/
  | snapshotOutsideMemory
  deriving DecidableEq, Repr

/-- What the model gives no meaning. -/
inductive Refusal where
  /-- An instruction that has no meaning yet. No arm of `exec` answers it. Safe: nothing is claimed of it. -/
  | notModelled (mnemonic : String)
  /-- Answered by `launch`: the program has more than `MEM_SIZE` words and cannot be loaded (70_reset_and_hazards.md
  R183). Safe: the launch is refused; no step answers it (log entry 7). -/
  | programTooLong
  /-- Answered by `release`: `ld_used_len` exceeds `MEM_SIZE` (70_reset_and_hazards.md R183). Safe: the launch is
  refused; no step answers it (log entry 7). -/
  | usedLenOverMemory
  deriving DecidableEq, Repr

/-- The machine right after reset, with nothing loaded: every value is the one 10_state.md R37 states, under the spec's
default parameters (00_scope.md R3 to R5). -/
def State.reset : State :=
  { cfg := Config.default
    regs := Vector.replicate 8 0
    pc := 0
    mem := []
    usedLen := 0
    status := .running
    instrCount := 0
    cycleCount := 0
    faultInfo := 0
    trace := [] }

end Sys2Proof.Machine
end

