-- ==== Sys2Proof/Machine/Ops.lean ====
section
/-! DEFINITION. The shared operations of the FSM: register file ports, memory primitives, events, taking an exception
and completing a step (00_scope.md R10, 20_memory.md, 40_execution_cycle.md, 60_exceptions.md). -/

namespace Sys2Proof.Machine

/-! ### Register file -/

/-- A read port of the register file: `x[i]` (10_state.md R22). -/
def State.x (s : State) (i : RegIdx) : Word := s.regs[i.val]

/-- The write port of the register file: `x[i] <- v` (10_state.md R23). No register is hardwired (R21). -/
def State.setX (s : State) (i : RegIdx) (v : Word) : State := { s with regs := s.regs.set i.val v }

/-! ### Cells and words of the memory array -/

/-- One cell. -/
def Memory.readByte : Memory → Nat → Byte
  | [], _ => Memory.unlisted
  | c :: m, k => if c.1 = k then c.2 else Memory.readByte m k

/-- The list without any entry for cell `k`. -/
def Memory.eraseByte (m : Memory) (k : Nat) : Memory := m.filter fun c => c.1 ≠ k

/-- The list with an entry for cell `k`, put before the first larger address. -/
def Memory.insertByte : Memory → Nat → Byte → Memory
  | [], k, v => [(k, v)]
  | c :: m, k, v => if k < c.1 then (k, v) :: c :: m else c :: Memory.insertByte m k v

/-- Writing one cell; the value an unlisted cell reads as is not listed. -/
def Memory.writeByte (m : Memory) (k : Nat) (v : Byte) : Memory :=
  if v = Memory.unlisted then m.eraseByte k else (m.eraseByte k).insertByte k v

/-- `M[i]` (10_state.md R28): four cells, read as one word (20_memory.md R54). -/
def Memory.readWord (m : Memory) (i : Nat) : Word :=
  wordOfBytes (m.readByte (4 * i)) (m.readByte (4 * i + 1)) (m.readByte (4 * i + 2)) (m.readByte (4 * i + 3))

/-- `M[i] <- v`: the four cells of one word, written together (20_memory.md R54, R57). -/
def Memory.writeWord (m : Memory) (i : Nat) (v : Word) : Memory :=
  (((m.writeByte (4 * i) (byteOfWord v 0)).writeByte (4 * i + 1) (byteOfWord v 1)).writeByte
    (4 * i + 2) (byteOfWord v 2)).writeByte (4 * i + 3) (byteOfWord v 3)

/-! ### Addresses and the memory primitives -/

/-- The address is valid: `0 <= signed(a) < MEM_SIZE` (20_memory.md R50). -/
def State.addrOk (s : State) (a : Word) : Bool := 0 ≤ a.toInt ∧ a.toInt < s.cfg.memSize

/-- The index `signed(a)` of the word an address names (20_memory.md R50). -/
def wordIndex (a : Word) : Nat := a.toInt.toNat

/-- `MemRead(a, 1)` (20_memory.md R52). -/
def memRead (s : State) (a : Word) : Except Raised Word :=
  if s.addrOk a then .ok (s.mem.readWord (wordIndex a)) else .error ⟨.outOfBounds, a⟩

/-- `MemWrite(a, 1, v)` (20_memory.md R53). -/
def memWrite (s : State) (a v : Word) : Except Raised State :=
  if s.addrOk a then .ok { s with mem := s.mem.writeWord (wordIndex a) v } else .error ⟨.outOfBounds, a⟩

/-- The fetch of a step: `MemRead(pc, 1)` (40_execution_cycle.md R92). -/
def fetch (s : State) : Except Raised Word := memRead s s.pc

/-! ### Events -/

/-- `emit Ev`: append to the run's trace (00_scope.md R10). -/
def emit (s : State) (e : Event) : State := { s with trace := s.trace ++ [e] }

/-- The words `M[0]` to `M[used_len - 1]` of a snapshot (40_execution_cycle.md R95). -/
def usedMemory (s : State) : List Word := (List.range s.usedLen).map s.mem.readWord

/-- `emit Snapshot`: the first thing a step does (40_execution_cycle.md R92, R95). -/
def emitSnapshot (s : State) : State := emit s (.snapshot s.pc (usedMemory s) s.regs)

/-- Every word a snapshot reads exists: `used_len <= MEM_SIZE` (10_state.md R29). -/
def snapshotFits (s : State) : Bool := s.usedLen ≤ s.cfg.memSize

/-! ### Taking an exception; completing a step -/

/-- `code(E)`: the status an exception leads to (60_exceptions.md R151). -/
def Exc.status : Exc → Status
  | .outOfBounds => .errOutOfBounds
  | .badDestination => .errBadDest
  | .illegalOpcode => .errIllegalOpcode

/-- `raise E(info)` (60_exceptions.md R152): `s` is the state at the start of the step after its Snapshot, so every
write the step had pending is discarded. There is no return from it (R155): only reset leaves the state it enters. -/
def raise (s : State) (r : Raised) : State :=
  emit { s with status := r.exc.status, faultInfo := r.info } (.error r.exc r.info)

/-- The common tail of a step that completes (40_execution_cycle.md R92, R96), with its new pc. -/
def complete (op : Opcode) (pc : Word) (s : State) : State :=
  { s with pc := pc, instrCount := s.instrCount + 1, cycleCount := s.cycleCount + s.cfg.cost.of op }

/-- A step commits all its writes, or raises and commits none (40_execution_cycle.md R91): `r` is the answer of the one
check the instruction makes (60_exceptions.md R153), and `k` gives the state it commits. -/
def commit {α : Type} (s : State) (r : Except Raised α) (k : α → State) : Host.Outcome State Fault Refusal :=
  match r with
  | .ok v => .next (k v)
  | .error e => .next (raise s e)

/-- The incremented pc, `pc1 = pc + 1` modulo 2^32 (40_execution_cycle.md R93). -/
def State.pc1 (s : State) : Word := s.pc + 1

/-! ### Placing an instruction where the next step fetches -/

/-- The state with the word `w` where its next step fetches: RUNNING, at its own pc if that is a valid address and else
at address 0, and with a snapshot that fits (for `State.withFetchWord`). -/
def placeFetch (s : State) (w : Word) : State :=
  let pc := if s.addrOk s.pc then s.pc else 0
  { s with
    pc := pc
    status := .running
    usedLen := min s.usedLen s.cfg.memSize
    mem := s.mem.writeWord (wordIndex pc) w }

end Sys2Proof.Machine
end

