-- ==== Sys2Proof/Machine/Operands.lean ====
section
/-! DEFINITION. The operand forms: the destination of ADD and NAND (41_alu.md R112), the load/store address calculator
(42_load_store.md R120) and the branch adder (40_execution_cycle.md R102). -/

namespace Sys2Proof.Machine

/-- `resolveDest(d)` (41_alu.md R112). -/
def resolveDest (p : DestPolicy) (imm16 : Imm16) : Except Raised RegIdx :=
  if destOk imm16 then .ok (destOf imm16)
  else
    match p with
    | .mask3 => .ok (destOf imm16)
    | .fault => .error ⟨.badDestination, sext32 imm16⟩

/-- `ea = base + off`, modulo 2^32: the one addressing mode, `x[regB]` plus the sign-extended offset
(42_load_store.md R120, R121). -/
def effAddr (s : State) (regB : RegIdx) (imm16 : Imm16) : Word := s.x regB + sext32 imm16

/-- `ea_ok` (42_load_store.md R120). -/
def effAddrOk (s : State) (regB : RegIdx) (imm16 : Imm16) : Bool := s.addrOk (effAddr s regB imm16)

/-- The branch adder: `pc1 + imm`, modulo 2^32 (43_control.md R130, R131). -/
def branchTarget (s : State) (imm16 : Imm16) : Word := s.pc1 + sext32 imm16

end Sys2Proof.Machine
end

