-- ==== Sys2Proof/Machine/Alu.lean ====
section
/-! DEFINITION. The ALU's result (41_alu.md R110, R111) and the meanings of ADD and NAND (R113, R114). -/

namespace Sys2Proof.Machine

/-- The ALU's operation input `op` (41_alu.md R110). -/
inductive AluOp where
  | add | nand
  deriving DecidableEq, Repr

/-- The ALU's result `y` (41_alu.md R111). -/
def aluY (op : AluOp) (a b : Word) : Word :=
  match op with
  | .add => a + b
  | .nand => ~~~(a &&& b)

/-- What ADD and NAND share: resolve the destination, write the result there, advance. -/
def execAlu (op : AluOp) (code : Opcode) (regA regB : RegIdx) (imm16 : Imm16) (s : State) :
    Host.Outcome State Fault Refusal :=
  commit s (resolveDest s.cfg.destPolicy imm16) fun k =>
    complete code s.pc1 (s.setX k (aluY op (s.x regA) (s.x regB)))

/-- ADD (41_alu.md R113). -/
def execAdd (regA regB : RegIdx) (imm16 : Imm16) (s : State) : Host.Outcome State Fault Refusal :=
  execAlu .add .add regA regB imm16 s

/-- NAND (41_alu.md R114). -/
def execNand (regA regB : RegIdx) (imm16 : Imm16) (s : State) : Host.Outcome State Fault Refusal :=
  execAlu .nand .nand regA regB imm16 s

end Sys2Proof.Machine
end

