-- ==== Sys2Proof/Machine/Flags.lean ====
section
/-! DEFINITION. The core has no flags, condition codes or predicates, and no instruction writes one (10_state.md R36).
The one condition it computes is the ALU's `eq` output, which BEQ reads (41_alu.md R110, R111). -/

namespace Sys2Proof.Machine

/-- `eq`: all 32 bits are equal (41_alu.md R111). -/
def aluEq (a b : Word) : Bool := a == b

end Sys2Proof.Machine
end

