-- ==== Sys2Proof/Machine/Control.lean ====
section
/-! DEFINITION. The meanings of BEQ and JALR (43_control.md R131, R132). Neither checks its target: a target outside the
memory makes the next fetch raise (R130). -/

namespace Sys2Proof.Machine

/-- BEQ (43_control.md R131). -/
def execBeq (regA regB : RegIdx) (imm16 : Imm16) (s : State) : Host.Outcome State Fault Refusal :=
  .next (complete .beq (if aluEq (s.x regA) (s.x regB) then branchTarget s imm16 else s.pc1) s)

/-- JALR (43_control.md R132): the target is the old `x[regB]`, also when regA is regB. -/
def execJalr (regA regB : RegIdx) (s : State) : Host.Outcome State Fault Refusal :=
  .next (complete .jalr (s.x regB) (s.setX regA s.pc1))

end Sys2Proof.Machine
end

