-- ==== Sys2Proof/Machine/LoadStore.lean ====
section
/-! DEFINITION. The meanings of LW and SW (42_load_store.md R122, R123). -/

namespace Sys2Proof.Machine

/-- LW (42_load_store.md R122): the address uses the old `x[regB]`, also when regA is regB. -/
def execLw (regA regB : RegIdx) (imm16 : Imm16) (s : State) : Host.Outcome State Fault Refusal :=
  commit s (memRead s (effAddr s regB imm16)) fun v => complete .lw s.pc1 (s.setX regA v)

/-- SW (42_load_store.md R123). -/
def execSw (regA regB : RegIdx) (imm16 : Imm16) (s : State) : Host.Outcome State Fault Refusal :=
  commit s (memWrite s (effAddr s regB imm16) (s.x regA)) fun t => complete .sw s.pc1 t

end Sys2Proof.Machine
end

