-- ==== Sys2Proof/Machine/System.lean ====
section
/-! DEFINITION. The meanings of HALT and NOOP (44_system.md R140, R141). -/

namespace Sys2Proof.Machine

/-- HALT (44_system.md R140): the Halted event, then HALTED; the pc stays at the HALT (90_conflicts.md C2) and the step
counts (C1). -/
def execHalt (s : State) : Host.Outcome State Fault Refusal :=
  .next (complete .halt s.pc { emit s .halted with status := .halted })

/-- NOOP (44_system.md R141). -/
def execNoop (s : State) : Host.Outcome State Fault Refusal :=
  .next (complete .noop s.pc1 s)

end Sys2Proof.Machine
end

