-- ==== Sys2Proof/Machine/Dispatch.lean ====
section
/-! DEFINITION. The dispatch on the opcode, exhaustive and without fall-through (40_execution_cycle.md R94). `exec` is
the part of a step after the Snapshot, the fetch and the decoding; `step` runs it in RUNNING only. -/

namespace Sys2Proof.Machine

def exec (i : Instr) (s : State) : Host.Outcome State Fault Refusal :=
  match i with
  | .add a b imm16 => Sys2Proof.Machine.execAdd a b imm16 s
  | .nand a b imm16 => Sys2Proof.Machine.execNand a b imm16 s
  | .lw a b imm16 => Sys2Proof.Machine.execLw a b imm16 s
  | .sw a b imm16 => Sys2Proof.Machine.execSw a b imm16 s
  | .beq a b imm16 => Sys2Proof.Machine.execBeq a b imm16 s
  | .jalr a b _ => Sys2Proof.Machine.execJalr a b s
  | .halt _ _ _ => Sys2Proof.Machine.execHalt s
  | .noop _ _ _ => Sys2Proof.Machine.execNoop s

end Sys2Proof.Machine
end

