-- ==== Sys2Proof/Machine/Step.lean ====
section
/-! DEFINITION. The step of the FSM (40_execution_cycle.md R92) and the placing of an instruction where the next step
fetches it. -/

namespace Sys2Proof.Machine

/-- One step. In RUNNING: emit the Snapshot, fetch, decode, execute; a fetch outside the memory raises (R92). In every
other state no step exists (R98): nothing is fetched or emitted and every piece of state keeps its value, so the
machine's next state is the state itself. DEDUCED, safe (log entry 4). -/
def step (s : State) : Host.Outcome State Fault Refusal :=
  if s.status = .running then
    if snapshotFits s then
      match fetch s with
      | .ok w => exec (decode w) (emitSnapshot s)
      | .error r => .next (raise (emitSnapshot s) r)
    else .fault .snapshotOutsideMemory
  else .next s

/-- `s` with the instruction whose bits are `w` (numbered as spec/opcode_table.json numbers them) stored where the next
step fetches. It stands for the host's load of a program (70_reset_and_hazards.md R181; log entry 10). -/
def State.withFetchWord (s : State) (nbits w : Nat) : State := placeFetch s (tableWord nbits w)

end Sys2Proof.Machine
end

