-- ==== Sys2Proof/Machine/Ports.lean ====
section
/-! DEFINITION. What the host reads at the core's output ports (10_state.md R38, 70_reset_and_hazards.md R184). Every
port reads state and none changes it. The strobes `snap_valid`, `halt_evt` and `err_evt` appear as the events of
`State.trace`; the cycle in which they pulse is timing (log entry 8). -/

namespace Sys2Proof.Machine

/-- The 3-bit code of `status` (10_state.md R30). -/
def Status.code : Status → BitVec 3
  | .running => 0
  | .halted => 1
  | .errIllegalOpcode => 2
  | .errOutOfBounds => 3
  | .errBadDest => 4

/-- Port `dbg_rdata`: `x[dbg_ridx]`. -/
def dbgRdata (s : State) (dbgRidx : RegIdx) : Word := s.x dbgRidx

/-- Port `dbg_mdata`: `M[signed(dbg_maddr)]` inside the memory, else 0. -/
def dbgMdata (s : State) (dbgMaddr : Word) : Word :=
  match memRead s dbgMaddr with
  | .ok v => v
  | .error _ => 0

/-- The plain output ports of one moment. -/
structure PortsOut where
  status : BitVec 3
  pcOut : Word
  faultInfo : Word
  instrCount : Nat
  cycleCount : Nat
  deriving DecidableEq, Repr

/-- The values the core drives on its plain output ports. -/
def portsOut (s : State) : PortsOut :=
  { status := s.status.code
    pcOut := s.pc
    faultInfo := s.faultInfo
    instrCount := s.instrCount
    cycleCount := s.cycleCount }

end Sys2Proof.Machine
end

