-- ==== Sys2Proof/Machine/Reset.lean ====
section
/-! DEFINITION. What the host does to the core through reset (70_reset_and_hazards.md R180 to R184): the reset period, the
loading of memory within it, and the launch of a program. A step takes no input, so these are functions beside it, on any
state: reset may be asserted at any time (R180; log entry 9). -/

namespace Sys2Proof.Machine

/-- Asserting `rst` in any state: the run is abandoned and every piece of state takes its reset value
(70_reset_and_hazards.md R180, R184). The parameters are the machine's own and stay. R180 states pc, the registers, the
counters and `fault_info` at every edge of the period, and memory and `used_len` only at its end.
DESIGN CHOICE (unsafe within the period): memory and `used_len` are cleared at once, before the first load (log entry 14),
and `status` is RUNNING at once (log entry 9). DESIGN CHOICE (safe): the trace is emptied (log entry 3). -/
def assertReset (s : State) : State := { State.reset with cfg := s.cfg }

/-- One edge with `rst = 1` and `ld_we = 1`: the word `ld_data` is loaded at `ld_addr` if that is a valid address, and
the write is ignored otherwise (70_reset_and_hazards.md R181). -/
def loadEdge (s : State) (ldAddr ldData : Word) : State :=
  match memWrite s ldAddr ldData with
  | .ok t => t
  | .error _ => s

/-- A whole reset period: reset, then the host's loads in order, then `ld_used_len` sampled at the last edge
(70_reset_and_hazards.md R180, R181). -/
def resetPeriod (s : State) (loads : List (Word × Word)) (ldUsedLen : Word) : State :=
  { loads.foldl (fun t e => loadEdge t e.1 e.2) (assertReset s) with usedLen := ldUsedLen.toNat }

/-- Releasing reset after such a period starts a run (70_reset_and_hazards.md R182). A launch with `used_len > MEM_SIZE`
is refused (R183; log entry 7). -/
def release (s : State) (loads : List (Word × Word)) (ldUsedLen : Word) : Host.Outcome State Fault Refusal :=
  let t := resetPeriod s loads ldUsedLen
  if snapshotFits t then .next t else .refused .usedLenOverMemory

/-- The load edges that put a program's words into `M[k]`, `M[k + 1]`, ... (70_reset_and_hazards.md R183). -/
def programLoads : Nat → List Word → List (Word × Word)
  | _, [] => []
  | k, w :: ws => (BitVec.ofNat 32 k, w) :: programLoads (k + 1) ws

/-- Launching a program: its words loaded in order from address 0, `used_len` their number, reset released
(70_reset_and_hazards.md R183). A program longer than the memory cannot be loaded (log entry 7). -/
def launch (s : State) (words : List Word) : Host.Outcome State Fault Refusal :=
  if words.length ≤ s.cfg.memSize then release s (programLoads 0 words) (BitVec.ofNat 32 words.length)
  else .refused .programTooLong

end Sys2Proof.Machine
end

