-- ==== Sys2Proof/Safety.lean ====
section
/-! DEFINITION. The terms in which statements speak of states, instructions and runs: what two states share, what an
instruction reads and writes by the tables of the spec, terminal and error states, legal states, the shape of a run's
trace, and what a terminal state says about the step that entered it. -/

namespace Sys2Proof.Machine

/-! ### Addresses -/

/-- The address is valid: `0 <= signed(a) < MEM_SIZE` (20_memory.md R50). -/
abbrev inMemory (s : State) (a : Word) : Prop := 0 ≤ a.toInt ∧ a.toInt < s.cfg.memSize

/-- `M[signed(a)]` (20_memory.md R52). -/
def wordAt (s : State) (a : Word) : Word := s.mem.readWord a.toInt.toNat

/-! ### What two states share -/

/-- Every general register holds the same value. -/
def sameRegs (s t : State) : Prop := ∀ i : RegIdx, t.x i = s.x i

/-- Every general register but `k` holds the same value. -/
def sameRegsBut (k : RegIdx) (s t : State) : Prop := ∀ i : RegIdx, i ≠ k → t.x i = s.x i

/-- Every byte of memory reads the same. -/
def sameBytes (s t : State) : Prop := ∀ k : Nat, t.mem.readByte k = s.mem.readByte k

/-- Every byte of memory outside the four of word `w` reads the same. -/
def sameBytesBut (w : Nat) (s t : State) : Prop :=
  ∀ k : Nat, ¬ (4 * w ≤ k ∧ k < 4 * w + 4) → t.mem.readByte k = s.mem.readByte k

/-- What no completing instruction but HALT writes: the parameters, `used_len`, `status`, `fault_info` and the trace. -/
def quiet (s t : State) : Prop :=
  t.cfg = s.cfg ∧ t.usedLen = s.usedLen ∧ t.status = s.status ∧ t.faultInfo = s.faultInfo ∧ t.trace = s.trace

/-- The step is counted: one instruction, and the cost of its opcode (40_execution_cycle.md R96). -/
def counted (op : Opcode) (s t : State) : Prop :=
  t.instrCount = s.instrCount + 1 ∧ t.cycleCount = s.cycleCount + s.cfg.cost.of op

/-- Neither counter changed (40_execution_cycle.md R97). -/
def uncounted (s t : State) : Prop := t.instrCount = s.instrCount ∧ t.cycleCount = s.cycleCount

/-- `t` is `s` after `raise E(info)` (60_exceptions.md R152): every pending write is discarded, `status` and
`fault_info` are written, and one Error event is emitted. -/
def raisedTo (s t : State) (e : Exc) (info : Word) : Prop :=
  t.status = e.status ∧ t.faultInfo = info ∧ t.trace = s.trace ++ [.error e info] ∧
    t.pc = s.pc ∧ sameRegs s t ∧ t.mem = s.mem ∧ uncounted s t ∧ t.cfg = s.cfg ∧ t.usedLen = s.usedLen

/-! ### What an instruction reads and writes -/

/-- The "reads" column of 10_state.md R24. -/
def readRegs : Instr → List RegIdx
  | .add a b _ => [a, b]
  | .nand a b _ => [a, b]
  | .lw _ b _ => [b]
  | .sw a b _ => [a, b]
  | .beq a b _ => [a, b]
  | .jalr _ b _ => [b]
  | .halt _ _ _ => []
  | .noop _ _ _ => []

/-- The "writes" column of 10_state.md R24. -/
def writtenReg : Instr → Option RegIdx
  | .add _ _ imm16 => some (destOf imm16)
  | .nand _ _ imm16 => some (destOf imm16)
  | .lw a _ _ => some a
  | .sw _ _ _ => none
  | .beq _ _ _ => none
  | .jalr a _ _ => some a
  | .halt _ _ _ => none
  | .noop _ _ _ => none

/-- The address an instruction stores to: SW's effective address (20_memory.md R53: "Only SW uses it"). -/
def storeAddr (s : State) : Instr → Option Word
  | .sw _ b imm16 => some (effAddr s b imm16)
  | .add _ _ _ | .nand _ _ _ | .lw _ _ _ | .beq _ _ _ | .jalr _ _ _ | .halt _ _ _ | .noop _ _ _ => none

/-- The pc a completing instruction leaves (40_execution_cycle.md R93, R102). -/
def nextPc (s : State) : Instr → Word
  | .beq a b imm16 => if s.x a = s.x b then s.pc + 1 + sext32 imm16 else s.pc + 1
  | .jalr _ b _ => s.x b
  | .halt _ _ _ => s.pc
  | .add _ _ _ | .nand _ _ _ | .lw _ _ _ | .sw _ _ _ | .noop _ _ _ => s.pc + 1

/-! ### Terminal and legal states -/

/-- A state from which no step exists: every FSM state but RUNNING (40_execution_cycle.md R90, R98). -/
abbrev State.terminal (s : State) : Prop := s.status ≠ .running

/-- The three error states (10_state.md R30). -/
def Status.isError : Status → Bool
  | .running => false
  | .halted => false
  | .errIllegalOpcode => true
  | .errOutOfBounds => true
  | .errBadDest => true

/-- The legal states: legal parameters (00_scope.md R3), canonical memory that lists only cells of the `MEM_SIZE` words
(10_state.md R28), `used_len <= MEM_SIZE` (R29), and never ERR_ILLEGAL_OPCODE (30_encoding.md R76). -/
abbrev State.legal (s : State) : Prop :=
  s.cfg.legal ∧ Memory.wf s.mem ∧ (∀ c ∈ s.mem, c.1 < 4 * s.cfg.memSize) ∧ s.usedLen ≤ s.cfg.memSize ∧
    s.status ≠ .errIllegalOpcode

/-! ### The trace of a run -/

/-- The event is a Snapshot. -/
def Event.isSnapshot : Event → Bool
  | .snapshot _ _ _ => true
  | .halted => false
  | .error _ _ => false

/-- The events that follow the last Snapshot of a run whose FSM is in the given state with the given `fault_info`
(40_execution_cycle.md R99). -/
def finalEvents (info : Word) : Status → List Event
  | .running => []
  | .halted => [.halted]
  | .errIllegalOpcode => [.error .illegalOpcode info]
  | .errOutOfBounds => [.error .outOfBounds info]
  | .errBadDest => [.error .badDestination info]

/-- The Snapshots of a run: one for each completed instruction, and one more for a step that raised
(40_execution_cycle.md R95 to R97). -/
def snapshotCount (s : State) : Nat := s.instrCount + s.status.isError.toNat

/-- The trace is that many Snapshots and then the final event, if the run has ended (40_execution_cycle.md R99). -/
def State.traceShape (s : State) : Prop :=
  ∃ snaps : List Event, s.trace = snaps ++ finalEvents s.faultInfo s.status ∧
    (∀ e ∈ snaps, e.isSnapshot = true) ∧ snaps.length = snapshotCount s

/-! ### Exceptions and terminal states -/

/-- The address a LW or SW accesses, from the registers of the state; none for another instruction. -/
def accessAddr (s : State) : Instr → Option Word
  | .lw _ b imm16 => some (effAddr s b imm16)
  | .sw _ b imm16 => some (effAddr s b imm16)
  | .add _ _ _ | .nand _ _ _ | .beq _ _ _ | .jalr _ _ _ | .halt _ _ _ | .noop _ _ _ => none

/-- The destination immediate of an ADD or NAND; none for another instruction. -/
def destImm : Instr → Option Imm16
  | .add _ _ imm16 => some imm16
  | .nand _ _ imm16 => some imm16
  | .lw _ _ _ | .sw _ _ _ | .beq _ _ _ | .jalr _ _ _ | .halt _ _ _ | .noop _ _ _ => none

/-- The exception an instruction's own check raises in a state, if any: the rows of 60_exceptions.md R151 after the
fetch, by the order of R153. -/
def ownCheck (s : State) (i : Instr) : Option Raised :=
  match accessAddr s i, destImm i with
  | some ea, _ => if inMemory s ea then none else some ⟨.outOfBounds, ea⟩
  | none, some imm16 => if imm16.toNat < 8 ∨ s.cfg.destPolicy = .mask3 then none else some ⟨.badDestination, sext32 imm16⟩
  | none, none => none

/-- What a terminal state says of the step that entered it: pc still addresses the word that halted or raised, and
`fault_info` is what that word's check recorded, or the pc that could not be fetched (60_exceptions.md R151, R152,
44_system.md R140). -/
def State.explained (s : State) : Prop :=
  match s.status with
  | .running => True
  | .halted => ∃ w, fetch s = .ok w ∧ (decode w).opcode = .halt
  | .errIllegalOpcode => False
  | .errOutOfBounds =>
      (fetch s = .error ⟨.outOfBounds, s.faultInfo⟩ ∧ s.faultInfo = s.pc) ∨
        ∃ w, fetch s = .ok w ∧ ownCheck s (decode w) = some ⟨.outOfBounds, s.faultInfo⟩
  | .errBadDest => ∃ w, fetch s = .ok w ∧ ownCheck s (decode w) = some ⟨.badDestination, s.faultInfo⟩

end Sys2Proof.Machine
end

