-- ==== Sys2Proof/Certificates/Slice0/Obligations.lean ====
section
/-! DEFINITION. The statements about the AP2 core, one `def Obligations.<Name> : Prop` each. A docstring names the rules
of spec/ a statement formalises. A statement about a next state covers a step that completes and a step that raises,
unless its hypotheses say which. -/

open Sys2Proof Sys2Proof.Machine

/-! ## Encoding and decoding -/

/-- Words written out from 30_encoding.md R70 and R77 and listed in 95_test_vectors.md section 2 decode to the
instructions they stand for; every family is there, and words with ignored bits set. -/
def Obligations.DecodeWrittenWords : Prop :=
  decode 0x00010002 = .add 0 1 2 ∧
  decode 0x004A0003 = .nand 1 2 3 ∧
  decode 0x008AFFFE = .lw 1 2 0xFFFE ∧
  decode 0x00DC0002 = .sw 3 4 2 ∧
  decode 0x010AFFFD = .beq 1 2 0xFFFD ∧
  decode 0x01530000 = .jalr 2 3 0 ∧
  decode 0x01800000 = .halt 0 0 0 ∧
  decode 0x01C0ABCD = .noop 0 0 0xABCD ∧
  decode 0xFF4A1234 = .jalr 1 2 0x1234 ∧
  decode 0xFFFFFFFF = .noop 7 7 0xFFFF

/-- Decoding the word of ANY instruction, canonical or not, gives the instruction back with every field; so does
decoding its four bytes, and reading it by the numbering of the opcode table (R70, R81, R82). -/
def Obligations.DecodeEncodeRoundTrip : Prop :=
  ∀ i : Instr, decode (encode i) = i ∧
    (∀ rest : List Byte, decodeBytes (byteOfWord (encode i) 0 :: byteOfWord (encode i) 1 :: byteOfWord (encode i) 2 ::
      byteOfWord (encode i) 3 :: rest) = .ok (i, rest)) ∧
    decodeTableWord 32 (encode i).toNat = some i

/-- The encoding function of R82: the fields in their places and zeros above them; re-encoding the decoded fields of any
word gives its low 25 bits; and the canonical instructions are those whose words have zeros in the unused fields. -/
def Obligations.EncodingFunction : Prop :=
  (∀ (op : BitVec 3) (a b : RegIdx) (imm16 : Imm16),
    enc op a b imm16 = (op.setWidth 32 <<< 22) ||| (BitVec.ofNat 32 a.val <<< 19) ||| (BitVec.ofNat 32 b.val <<< 16) |||
      imm16.setWidth 32 ∧ (enc op a b imm16).toNat < 2 ^ 25) ∧
  (∀ w : Word, enc (decode w).opcode.bits (decode w).regA (decode w).regB (decode w).imm16 = w &&& 0x01FFFFFF) ∧
  (∀ i : Instr, i.wf = true ↔ encode i &&& (match i with
    | .add _ _ _ | .nand _ _ _ => 0x0000FFF8
    | .lw _ _ _ | .sw _ _ _ | .beq _ _ _ => 0x00000000
    | .jalr _ _ _ => 0x0000FFFF
    | .halt _ _ _ | .noop _ _ _ => 0x003FFFFF) = (0 : Word))

/-- The opcode is bits 24 to 22, regA bits 21 to 19 and regB bits 18 to 16 of the word, at the decoder's ports and in the
decoded instruction (R72, R73). -/
def Obligations.FieldsAreBitRanges : Prop :=
  ∀ w : Word, (decoderPorts w).opcode.toNat = w.toNat / 2 ^ 22 % 8 ∧
    (decoderPorts w).regA.val = w.toNat / 2 ^ 19 % 8 ∧ (decoderPorts w).regB.val = w.toNat / 2 ^ 16 % 8 ∧
    (decode w).opcode.bits = (decoderPorts w).opcode ∧ (decode w).regA = (decoderPorts w).regA ∧
    (decode w).regB = (decoderPorts w).regB

/-- The immediate is bits 15 to 0, extended by copies of bit 15; as an integer it is `unsigned(w[15:0])`, less 2^16 when
bit 15 is set, so it lies in [-32768, 32767]; its low half is the field again (R74). -/
def Obligations.SignExtensionExact : Prop :=
  ∀ w : Word, (decoderPorts w).imm16.toNat = w.toNat % 2 ^ 16 ∧ (decode w).imm16 = (decoderPorts w).imm16 ∧
    (decoderPorts w).imm = (if w.getLsbD 15 then (0xFFFF : BitVec 16) ++ (decoderPorts w).imm16
      else (0 : BitVec 16) ++ (decoderPorts w).imm16) ∧
    (decoderPorts w).imm.toInt = ((decoderPorts w).imm16.toNat : Int) - (if w.getLsbD 15 then 2 ^ 16 else 0) ∧
    -32768 ≤ (decoderPorts w).imm.toInt ∧ (decoderPorts w).imm.toInt ≤ 32767 ∧
    (decoderPorts w).imm.toNat % 2 ^ 16 = w.toNat % 2 ^ 16

/-- `dest` is bits 2 to 0; `dest_ok` says that bits 15 to 3 are zero, which is to say that `signed(imm)` lies in 0 to 7,
and then `dest` is that number (R75). -/
def Obligations.DestinationFieldExact : Prop :=
  ∀ w : Word, (decoderPorts w).dest.val = w.toNat % 8 ∧
    ((decoderPorts w).destOk = true ↔ w.toNat / 8 % 2 ^ 13 = 0) ∧
    ((decoderPorts w).destOk = true ↔ 0 ≤ (decoderPorts w).imm.toInt ∧ (decoderPorts w).imm.toInt ≤ 7) ∧
    ((decoderPorts w).destOk = true → ((decoderPorts w).dest.val : Int) = (decoderPorts w).imm.toInt)

/-- The opcode map of R77: `w & 0x01C00000` selects the instruction, and the decoder's one-hot ports say the same. -/
def Obligations.OpcodeMapOfTheTable : Prop :=
  ∀ w : Word,
    ((decode w).opcode = .add ↔ w &&& 0x01C00000 = 0x00000000) ∧
    ((decode w).opcode = .nand ↔ w &&& 0x01C00000 = 0x00400000) ∧
    ((decode w).opcode = .lw ↔ w &&& 0x01C00000 = 0x00800000) ∧
    ((decode w).opcode = .sw ↔ w &&& 0x01C00000 = 0x00C00000) ∧
    ((decode w).opcode = .beq ↔ w &&& 0x01C00000 = 0x01000000) ∧
    ((decode w).opcode = .jalr ↔ w &&& 0x01C00000 = 0x01400000) ∧
    ((decode w).opcode = .halt ↔ w &&& 0x01C00000 = 0x01800000) ∧
    ((decode w).opcode = .noop ↔ w &&& 0x01C00000 = 0x01C00000) ∧
    ((decoderPorts w).isAdd = true ↔ (decode w).opcode = .add) ∧
    ((decoderPorts w).isNand = true ↔ (decode w).opcode = .nand) ∧
    ((decoderPorts w).isLw = true ↔ (decode w).opcode = .lw) ∧
    ((decoderPorts w).isSw = true ↔ (decode w).opcode = .sw) ∧
    ((decoderPorts w).isBeq = true ↔ (decode w).opcode = .beq) ∧
    ((decoderPorts w).isJalr = true ↔ (decode w).opcode = .jalr) ∧
    ((decoderPorts w).isHalt = true ↔ (decode w).opcode = .halt) ∧
    ((decoderPorts w).isNoop = true ↔ (decode w).opcode = .noop)

/-- Two words decode to the same instruction exactly when they agree in bits 24 to 0: bits 31 to 25 are ignored, and no
other bit is dropped. The spec marks the rule as derived and as its decision D17 (30_encoding.md section 3). -/
def Obligations.HighBitsIgnoredAndNoOthers : Prop :=
  ∀ w v : Word, decode w = decode v ↔ w &&& 0x01FFFFFF = v &&& 0x01FFFFFF

/-- The immediate of a JALR, and every operand field of a HALT and of a NOOP, may hold any value: the instruction does
the same (R79; the spec's decision D17). -/
def Obligations.IgnoredFieldsDoNotMatter : Prop :=
  ∀ (s : State) (a b a' b' : RegIdx) (imm16 imm16' : Imm16),
    exec (.jalr a b imm16) s = exec (.jalr a b imm16') s ∧
    exec (.halt a b imm16) s = exec (.halt a' b' imm16') s ∧
    exec (.noop a b imm16) s = exec (.noop a' b' imm16') s

/-- The decoder's `illegal` output is constantly 0, no instruction enters ERR_ILLEGAL_OPCODE, and no step does (R76; the
spec's decision D21). -/
def Obligations.IllegalOpcodeNeverEntered : Prop :=
  (∀ w : Word, (decoderPorts w).illegal = false) ∧
  (∀ (i : Instr) (s t : State), exec i s = .next t → s.status ≠ .errIllegalOpcode → t.status ≠ .errIllegalOpcode) ∧
  (∀ s t : State, step s = .next t → s.status ≠ .errIllegalOpcode → t.status ≠ .errIllegalOpcode)

/-! ## Registers, memory and the ALU -/

/-- Writing any of the eight registers, `x[0]` among them, makes it read the written value, and changes no other register
and no other state (R21). -/
def Obligations.EveryRegisterReadsBack : Prop :=
  ∀ (s : State) (i : RegIdx) (v : Word), (s.setX i v).x i = v ∧ sameRegsBut i s (s.setX i v) ∧
    quiet s (s.setX i v) ∧ uncounted s (s.setX i v) ∧ (s.setX i v).pc = s.pc ∧ (s.setX i v).mem = s.mem

/-- `MemRead`: a valid address gives `M[signed(a)]`, every other address raises OutOfBounds(a) (the spec's decision D4);
the fetch is `MemRead` at pc, and LW loads what `MemRead` gives at its address or raises what it raises (R52). -/
def Obligations.MemReadChecksBounds : Prop :=
  ∀ (s : State) (a : Word),
    (0 ≤ a.toInt ∧ a.toInt < s.cfg.memSize → memRead s a = .ok (s.mem.readWord a.toInt.toNat)) ∧
    (¬ (0 ≤ a.toInt ∧ a.toInt < s.cfg.memSize) → memRead s a = .error ⟨.outOfBounds, a⟩) ∧
    fetch s = memRead s s.pc ∧
    (∀ (r b : RegIdx) (imm16 : Imm16), effAddr s b imm16 = a → ∃ t, exec (.lw r b imm16) s = .next t ∧
      (∀ v, memRead s a = .ok v → t.x r = v) ∧ (∀ e, memRead s a = .error e → t = raise s e))

/-- `MemWrite`: at a valid address the word reads back, every byte outside it and every other piece of state is as
before; every other address raises OutOfBounds(a) (the spec's decision D4); and only SW uses it: any other instruction
leaves memory alone (R53). It holds for every list of cells, canonical or not. -/
def Obligations.MemWriteChecksBounds : Prop :=
  ∀ (s : State) (a v : Word),
    (0 ≤ a.toInt ∧ a.toInt < s.cfg.memSize → ∃ t, memWrite s a v = .ok t ∧ t.mem.readWord a.toInt.toNat = v ∧
      sameBytesBut a.toInt.toNat s t ∧ (∀ j, j ≠ a.toInt.toNat → t.mem.readWord j = s.mem.readWord j) ∧
      sameRegs s t ∧ t.pc = s.pc ∧ quiet s t ∧ uncounted s t) ∧
    (¬ (0 ≤ a.toInt ∧ a.toInt < s.cfg.memSize) → memWrite s a v = .error ⟨.outOfBounds, a⟩) ∧
    (∀ (i : Instr) (t : State), i.opcode ≠ .sw → exec i s = .next t → t.mem = s.mem)

/-- Two canonical memories that read the same at every byte are the same data. The list form is the model's own choice
(log entry 1). -/
def Obligations.CanonicalMemoryIsUnique : Prop :=
  ∀ m m' : Memory, m.wf → m'.wf → (∀ k : Nat, m.readByte k = m'.readByte k) → m = m'

/-- The ALU: ADD is addition modulo 2^32, NAND works bit by bit, `eq` says that all 32 bits agree (R111). -/
def Obligations.AluComputes : Prop :=
  ∀ a b : Word, (aluY .add a b).toNat = (a.toNat + b.toNat) % 2 ^ 32 ∧
    (∀ i : Nat, i < 32 → (aluY .nand a b).getLsbD i = !(a.getLsbD i && b.getLsbD i)) ∧
    (aluEq a b = true ↔ ∀ i : Nat, i < 32 → a.getLsbD i = b.getLsbD i)

/-- ADD wraps, read signed or unsigned, and subtraction is `a + (~b) + 1`, with `~b` a NAND of `b` with itself
(41_alu.md section 4, whose rule the spec marks as derived). -/
def Obligations.SubtractionFromNandAndAdd : Prop :=
  ∀ a b : Word, (aluY .add a b).toInt = (a.toInt + b.toInt).bmod (2 ^ 32) ∧
    aluY .add (aluY .add a (aluY .nand b b)) 1 = a - b

/-- Destination resolution: an immediate in 0 to 7 names its register; any other names the register of its low three
bits under MASK3, and raises BadDestination(imm) under FAULT, the default (R112). -/
def Obligations.DestinationResolution : Prop :=
  (∀ (p : DestPolicy) (imm16 : Imm16) (k : RegIdx), k.val = imm16.toNat % 8 →
    (imm16.toNat < 8 → resolveDest p imm16 = .ok k) ∧ (p = .mask3 → resolveDest p imm16 = .ok k) ∧
    (¬ imm16.toNat < 8 → p = .fault → resolveDest p imm16 = .error ⟨.badDestination, imm16.signExtend 32⟩)) ∧
  Config.default.destPolicy = .fault

/-! ## The eight instructions

Each says what the encoding selects, where the instruction completes and with what next state, and where it raises. -/

/-- ADD (R113). -/
def Obligations.AddWritesSumOrRaises : Prop :=
  ∀ (a b : RegIdx) (imm16 : Imm16) (s : State),
    decode (enc 0 a b imm16) = .add a b imm16 ∧
    (imm16.toNat < 8 ∨ s.cfg.destPolicy = .mask3 → ∀ k : RegIdx, k.val = imm16.toNat % 8 →
      ∃ t, exec (.add a b imm16) s = .next t ∧ t.x k = s.x a + s.x b ∧ t.pc = s.pc + 1 ∧
        sameRegsBut k s t ∧ sameBytes s t ∧ quiet s t ∧ counted .add s t) ∧
    (¬ imm16.toNat < 8 → s.cfg.destPolicy = .fault →
      ∃ t, exec (.add a b imm16) s = .next t ∧ raisedTo s t .badDestination (imm16.signExtend 32))

/-- NAND (R114). -/
def Obligations.NandWritesResultOrRaises : Prop :=
  ∀ (a b : RegIdx) (imm16 : Imm16) (s : State),
    decode (enc 1 a b imm16) = .nand a b imm16 ∧
    (imm16.toNat < 8 ∨ s.cfg.destPolicy = .mask3 → ∀ k : RegIdx, k.val = imm16.toNat % 8 →
      ∃ t, exec (.nand a b imm16) s = .next t ∧ t.x k = ~~~(s.x a &&& s.x b) ∧ t.pc = s.pc + 1 ∧
        sameRegsBut k s t ∧ sameBytes s t ∧ quiet s t ∧ counted .nand s t) ∧
    (¬ imm16.toNat < 8 → s.cfg.destPolicy = .fault →
      ∃ t, exec (.nand a b imm16) s = .next t ∧ raisedTo s t .badDestination (imm16.signExtend 32))

/-- LW (R122). -/
def Obligations.LwLoadsWordOrRaises : Prop :=
  ∀ (a b : RegIdx) (imm16 : Imm16) (s : State),
    decode (enc 2 a b imm16) = .lw a b imm16 ∧ effAddr s b imm16 = s.x b + imm16.signExtend 32 ∧
    (inMemory s (effAddr s b imm16) →
      ∃ t, exec (.lw a b imm16) s = .next t ∧ t.x a = wordAt s (effAddr s b imm16) ∧ t.pc = s.pc + 1 ∧
        sameRegsBut a s t ∧ sameBytes s t ∧ quiet s t ∧ counted .lw s t) ∧
    (¬ inMemory s (effAddr s b imm16) →
      ∃ t, exec (.lw a b imm16) s = .next t ∧ raisedTo s t .outOfBounds (effAddr s b imm16))

/-- SW (R123). -/
def Obligations.SwStoresWordOrRaises : Prop :=
  ∀ (a b : RegIdx) (imm16 : Imm16) (s : State),
    decode (enc 3 a b imm16) = .sw a b imm16 ∧ effAddr s b imm16 = s.x b + imm16.signExtend 32 ∧
    (inMemory s (effAddr s b imm16) →
      ∃ t, exec (.sw a b imm16) s = .next t ∧ wordAt t (effAddr s b imm16) = s.x a ∧ t.pc = s.pc + 1 ∧
        sameRegs s t ∧ sameBytesBut (effAddr s b imm16).toInt.toNat s t ∧ quiet s t ∧ counted .sw s t) ∧
    (¬ inMemory s (effAddr s b imm16) →
      ∃ t, exec (.sw a b imm16) s = .next t ∧ raisedTo s t .outOfBounds (effAddr s b imm16))

/-- BEQ (R131). -/
def Obligations.BeqBranchesOnEquality : Prop :=
  ∀ (a b : RegIdx) (imm16 : Imm16) (s : State),
    decode (enc 4 a b imm16) = .beq a b imm16 ∧
    ∃ t, exec (.beq a b imm16) s = .next t ∧
      (s.x a = s.x b → t.pc = s.pc + 1 + imm16.signExtend 32) ∧ (s.x a ≠ s.x b → t.pc = s.pc + 1) ∧
      sameRegs s t ∧ sameBytes s t ∧ quiet s t ∧ counted .beq s t

/-- JALR (R132): the target is the register's old value, also when regA is regB, and the link is then in it. -/
def Obligations.JalrJumpsAndLinks : Prop :=
  ∀ (a b : RegIdx) (imm16 : Imm16) (s : State),
    decode (enc 5 a b imm16) = .jalr a b imm16 ∧
    ∃ t, exec (.jalr a b imm16) s = .next t ∧ t.pc = s.x b ∧ t.x a = s.pc + 1 ∧
      sameRegsBut a s t ∧ sameBytes s t ∧ quiet s t ∧ counted .jalr s t

/-- HALT (R140): the Halted event, HALTED, pc kept (the spec's decision D12), the step counted. -/
def Obligations.HaltStopsAndCounts : Prop :=
  ∀ (a b : RegIdx) (imm16 : Imm16) (s : State),
    decode (enc 6 a b imm16) = .halt a b imm16 ∧ enc 6 0 0 0 = 0x01800000 ∧
    ∃ t, exec (.halt a b imm16) s = .next t ∧ t.status = .halted ∧ t.trace = s.trace ++ [.halted] ∧ t.pc = s.pc ∧
      sameRegs s t ∧ sameBytes s t ∧ counted .halt s t ∧ t.cfg = s.cfg ∧ t.usedLen = s.usedLen ∧
      t.faultInfo = s.faultInfo

/-- NOOP (R141). -/
def Obligations.NoopOnlyAdvances : Prop :=
  ∀ (a b : RegIdx) (imm16 : Imm16) (s : State),
    decode (enc 7 a b imm16) = .noop a b imm16 ∧ enc 7 0 0 0 = 0x01C00000 ∧
    ∃ t, exec (.noop a b imm16) s = .next t ∧ t.pc = s.pc + 1 ∧
      sameRegs s t ∧ sameBytes s t ∧ quiet s t ∧ counted .noop s t

/-! ## Frames -/

/-- The frame of the instructions that write a register (ADD, NAND, LW, JALR): every other register, every byte of
memory, the parameters and `used_len` are unchanged, whether the instruction completes or raises; `status`,
`fault_info` and the trace change only when it raises (R23, R24, R34, R36). -/
def Obligations.RegisterWritersFrame : Prop :=
  ∀ (i : Instr) (k : RegIdx) (s t : State), writtenReg i = some k → exec i s = .next t →
    sameRegsBut k s t ∧ sameBytes s t ∧ t.cfg = s.cfg ∧ t.usedLen = s.usedLen ∧
    (quiet s t ∨ (t.status.isError = true ∧ sameRegs s t ∧ t.pc = s.pc ∧ uncounted s t))

/-- The frame of the storing instruction (SW): every register, and every byte outside the word at the effective address
taken in the state before, are unchanged; where no store is made, every byte is (R23, R24, R53). -/
def Obligations.StoreFrame : Prop :=
  ∀ (i : Instr) (ea : Word) (s t : State), storeAddr s i = some ea → exec i s = .next t →
    sameRegs s t ∧ sameBytesBut ea.toInt.toNat s t ∧ (¬ inMemory s ea → sameBytes s t) ∧ t.cfg = s.cfg ∧
    t.usedLen = s.usedLen ∧ (quiet s t ∨ (t.status.isError = true ∧ t.pc = s.pc ∧ uncounted s t))

/-- The frame of the instructions that write neither a register nor memory (BEQ, HALT, NOOP): every register, every byte,
the parameters, `used_len` and `fault_info` are unchanged, and all but HALT leave `status` and the trace (R23, R24). -/
def Obligations.NoWriteFrame : Prop :=
  ∀ (i : Instr) (s t : State), writtenReg i = none → storeAddr s i = none → exec i s = .next t →
    sameRegs s t ∧ sameBytes s t ∧ t.cfg = s.cfg ∧ t.usedLen = s.usedLen ∧ t.faultInfo = s.faultInfo ∧
    (i.opcode ≠ .halt → quiet s t)

/-- The register use of R24: no register outside the "writes" column changes, and no register outside the "reads" column
matters: whatever it holds, everything else comes out the same, the written register included. -/
def Obligations.RegisterUse : Prop :=
  ∀ (i : Instr) (s t : State) (k : RegIdx), exec i s = .next t →
    (writtenReg i ≠ some k → t.x k = s.x k) ∧
    (k ∉ readRegs i → ∀ v : Word, ∃ t', exec i (s.setX k v) = .next t' ∧ sameRegsBut k t t' ∧ t'.pc = t.pc ∧
      t'.mem = t.mem ∧ quiet t t' ∧ uncounted t t' ∧
      (writtenReg i = some k → t.status = s.status → s.status.isError = false → t'.x k = t.x k))

/-! ## The step -/

/-- A step in RUNNING runs the decoded instruction: with the Snapshot emitted, a word fetched at a valid pc is decoded and
executed; a pc outside the memory raises OutOfBounds(pc) and nothing is decoded (R92). -/
def Obligations.StepRunsDecodedInstruction : Prop :=
  ∀ s : State, s.status = .running → s.usedLen ≤ s.cfg.memSize →
    (inMemory s s.pc → step s = exec (decode (wordAt s s.pc)) (emitSnapshot s)) ∧
    (¬ inMemory s s.pc → ∃ t, step s = .next t ∧ raisedTo (emitSnapshot s) t .outOfBounds s.pc)

/-- Each step begins with one Snapshot: pc, the words `M[0]` to `M[used_len - 1]` and the registers, all as at the start
of the step, also when the step then raises; emitting it changes nothing but the trace; and no Snapshot is emitted in a
terminal state (R95; the spec's decision D15). -/
def Obligations.SnapshotFirst : Prop :=
  (∀ s t : State, s.status = .running → step s = .next t →
    ∃ rest, t.trace = s.trace ++ .snapshot s.pc (usedMemory s) s.regs :: rest ∧ ∀ e ∈ rest, e.isSnapshot = false) ∧
  (∀ s : State, (usedMemory s).length = s.usedLen ∧
    (∀ i : Nat, i < s.usedLen → (usedMemory s)[i]? = some (s.mem.readWord i)) ∧
    emitSnapshot s = { s with trace := s.trace ++ [.snapshot s.pc (usedMemory s) s.regs] }) ∧
  (∀ s t : State, s.terminal → step s = .next t → t.trace = s.trace)

/-- A step that completes, HALT and NOOP included, adds 1 to `instr_count` and the cost of its opcode to `cycle_count`; a
step that raises changes neither; the default costs are 2, 2, 2, 2, 4, 1, 1, 1 (R96, R97). -/
def Obligations.CountersPerStep : Prop :=
  (∀ s t : State, s.status = .running → step s = .next t →
    (t.status.isError = false → ∃ w, fetch s = .ok w ∧ counted (decode w).opcode s t) ∧
    (t.status.isError = true → uncounted s t)) ∧
  (Config.default.cost.of .add = 2 ∧ Config.default.cost.of .nand = 2 ∧ Config.default.cost.of .lw = 2 ∧
    Config.default.cost.of .sw = 2 ∧ Config.default.cost.of .beq = 4 ∧ Config.default.cost.of .jalr = 1 ∧
    Config.default.cost.of .halt = 1 ∧ Config.default.cost.of .noop = 1)

/-- The transitions of the FSM: from RUNNING exactly a HALT leads to HALTED, exactly an address outside the memory to
ERR_OUT_OF_BOUNDS, exactly an out-of-range destination under FAULT to ERR_BAD_DEST, nothing to ERR_ILLEGAL_OPCODE;
everything else stays RUNNING (R90). Two clauses are the model's: that a step asked for in a terminal state answers a
state at all is log entry 4, since R98 says that no step exists there, and that `status` is RUNNING as soon as reset is
asserted is log entry 9, since R90 and R182 give RUNNING at the release. -/
def Obligations.StatusTransitions : Prop :=
  (∀ s t : State, s.status = .running → step s = .next t →
    (t.status = .halted ↔ ∃ w, fetch s = .ok w ∧ (decode w).opcode = .halt) ∧
    (t.status = .errOutOfBounds ↔ ¬ inMemory s s.pc ∨
      ∃ w ea, fetch s = .ok w ∧ accessAddr s (decode w) = some ea ∧ ¬ inMemory s ea) ∧
    (t.status = .errBadDest ↔ ∃ w imm16, fetch s = .ok w ∧ destImm (decode w) = some imm16 ∧
      ¬ imm16.toNat < 8 ∧ s.cfg.destPolicy = .fault) ∧
    t.status ≠ .errIllegalOpcode) ∧
  (∀ s t : State, s.terminal → step s = .next t → t.status = s.status) ∧
  (∀ s : State, (assertReset s).status = .running)

/-- A completed step leaves pc + 1, but for a taken BEQ (pc + 1 + imm), a JALR (the old target register) and a HALT (pc
itself, the spec's decision D12) (R26, R93). -/
def Obligations.PcAfterCompletedStep : Prop :=
  ∀ (s t : State) (w : Word), s.status = .running → step s = .next t → t.status.isError = false → fetch s = .ok w →
    t.pc = match decode w with
      | .beq a b imm16 => if s.x a = s.x b then s.pc + 1 + imm16.signExtend 32 else s.pc + 1
      | .jalr _ b _ => s.x b
      | .halt _ _ _ => s.pc
      | .add _ _ _ | .nand _ _ _ | .lw _ _ _ | .sw _ _ _ | .noop _ _ _ => s.pc + 1

/-- Exceptions are precise: a step that raises leaves pc, every register, memory and the counters as they were, writes
`status` and `fault_info`, and emits the Snapshot and one Error event (R152; the spec's decision D8). -/
def Obligations.ExceptionsArePrecise : Prop :=
  ∀ s t : State, s.status = .running → step s = .next t → t.status.isError = true →
    ∃ e, raisedTo (emitSnapshot s) t e t.faultInfo ∧ t.pc = s.pc ∧ sameRegs s t ∧ t.mem = s.mem ∧ uncounted s t

/-- The table of exceptions: a fetch, LW or SW outside the memory leads to code 3 with the address in `fault_info`, an
out-of-range destination under FAULT to code 4 with the extended immediate; no other step raises; the codes of the three
exceptions (R151; the spec's decisions D3, D4, D9, D10). -/
def Obligations.ExceptionTable : Prop :=
  (∀ s : State, s.status = .running → s.usedLen ≤ s.cfg.memSize →
    (¬ inMemory s s.pc → ∃ t, step s = .next t ∧ t.status.code = 3 ∧ t.faultInfo = s.pc) ∧
    (∀ (w ea : Word), fetch s = .ok w → accessAddr s (decode w) = some ea → ¬ inMemory s ea →
      ∃ t, step s = .next t ∧ t.status.code = 3 ∧ t.faultInfo = ea) ∧
    (∀ (w : Word) (imm16 : Imm16), fetch s = .ok w → destImm (decode w) = some imm16 → ¬ imm16.toNat < 8 →
      s.cfg.destPolicy = .fault →
      ∃ t, step s = .next t ∧ t.status.code = 4 ∧ t.faultInfo = imm16.signExtend 32) ∧
    (∀ w : Word, fetch s = .ok w → (∀ ea, accessAddr s (decode w) = some ea → inMemory s ea) →
      (∀ imm16, destImm (decode w) = some imm16 → imm16.toNat < 8 ∨ s.cfg.destPolicy = .mask3) →
      ∃ t, step s = .next t ∧ t.status.isError = false)) ∧
  (Exc.outOfBounds.status.code = 3 ∧ Exc.badDestination.status.code = 4 ∧ Exc.illegalOpcode.status.code = 2)

/-- No step exists from a terminal state: however many are asked for, every piece of state keeps its value. That the
machine answers the same state there, and not a stop, is the model's choice (log entry 4; 40_execution_cycle.md
section 3). -/
def Obligations.TerminalStatesAreAbsorbing : Prop :=
  ∀ (s : State) (n : Nat), s.terminal → Sys2Proof.core.run n s = .next s

/-- A step writes at most one general register, the one its instruction names, or one memory word, the one SW addresses;
not both. A step that raises writes neither (R91; R23). Nor does one from a terminal state, where R98 says that no step
exists and the model's step answers the same state (log entry 4). -/
def Obligations.OneRegisterOrOneWord : Prop :=
  ∀ s t : State, step s = .next t →
    (s.terminal ∨ t.status.isError = true → sameRegs s t ∧ sameBytes s t) ∧
    (∀ w, s.status = .running → fetch s = .ok w →
      (∀ k, writtenReg (decode w) ≠ some k → t.x k = s.x k) ∧
      (storeAddr s (decode w) = none → sameBytes s t) ∧
      (∀ ea, storeAddr s (decode w) = some ea → sameBytesBut ea.toInt.toNat s t) ∧
      (writtenReg (decode w) = none ∨ storeAddr s (decode w) = none))

/-- No step writes the parameters or `used_len`, and executing any instruction commutes with setting `used_len`: no
instruction reads it (R29, R3 to R5). -/
def Obligations.UsedLenAndParametersUntouched : Prop :=
  (∀ s t : State, step s = .next t → t.cfg = s.cfg ∧ t.usedLen = s.usedLen) ∧
  (∀ (i : Instr) (s t : State) (n : Nat), exec i s = .next t →
    exec i { s with usedLen := n } = .next { t with usedLen := n })

/-- No instruction reads the counters, `fault_info`, `used_len` or the trace: from two states that agree on the
parameters, the registers, pc, memory and `status`, the next states agree on them too, the counters advance by the same,
and an exception records the same value (10_state.md section 5, whose rule the spec marks as derived). -/
def Obligations.HostRegistersAreNotRead : Prop :=
  ∀ s s' t : State, s'.cfg = s.cfg → s'.regs = s.regs → s'.pc = s.pc → s'.mem = s.mem → s'.status = s.status →
    s'.usedLen ≤ s'.cfg.memSize → step s = .next t →
    ∃ t', step s' = .next t' ∧ t'.cfg = t.cfg ∧ t'.regs = t.regs ∧ t'.pc = t.pc ∧ t'.mem = t.mem ∧
      t'.status = t.status ∧ t'.instrCount + s.instrCount = t.instrCount + s'.instrCount ∧
      t'.cycleCount + s.cycleCount = t.cycleCount + s'.cycleCount ∧
      (s.status = .running → t.status.isError = true → t'.faultInfo = t.faultInfo)

/-- Fetch is coherent with stores: after a SW to the next instruction's address, the next step runs the stored word
(20_memory.md section 5, whose rule the spec marks as derived). -/
def Obligations.StoreToNextInstructionIsFetched : Prop :=
  ∀ (s : State) (w : Word) (a b : RegIdx) (imm16 : Imm16), s.status = .running → s.usedLen ≤ s.cfg.memSize →
    fetch s = .ok w → decode w = .sw a b imm16 → effAddr s b imm16 = s.pc + 1 → inMemory s (s.pc + 1) →
    ∃ t, step s = .next t ∧ t.pc = s.pc + 1 ∧ fetch t = .ok (s.x a) ∧
      step t = exec (decode (s.x a)) (emitSnapshot t)

/-- A memory word changes only by a SW to it, and then holds the stored register: so every later read returns the most
recent store (R60; R53). -/
def Obligations.MemoryChangesOnlyByStore : Prop :=
  ∀ (s t : State) (j : Nat), step s = .next t → t.mem.readWord j ≠ s.mem.readWord j →
    s.status = .running ∧ ∃ w a b imm16, fetch s = .ok w ∧ decode w = .sw a b imm16 ∧
      inMemory s (effAddr s b imm16) ∧ (effAddr s b imm16).toInt = j ∧ t.mem.readWord j = s.x a

/-- `beq r r -1` loops for ever wherever it stands: after any number of steps the core is RUNNING at the same pc, and
every step was counted (R99's example). -/
def Obligations.BranchToItselfNeverEnds : Prop :=
  ∀ (s : State) (w : Word) (r : RegIdx) (n : Nat), s.status = .running → s.usedLen ≤ s.cfg.memSize →
    fetch s = .ok w → decode w = .beq r r 0xFFFF →
    ∃ t : State, Sys2Proof.core.run n s = .next t ∧ t.status = .running ∧ t.pc = s.pc ∧ sameRegs s t ∧ sameBytes s t ∧
      t.instrCount = s.instrCount + n ∧ t.cycleCount = s.cycleCount + n * s.cfg.cost.beq

/-- A taken BEQ and a JALR never check their target: with a target outside the memory they complete and are counted, and
the next step raises OutOfBounds(target) at its fetch (R130; the spec's decision D19). -/
def Obligations.TargetOutsideMemoryFaultsAtNextFetch : Prop :=
  ∀ (s : State) (w : Word), s.status = .running → s.usedLen ≤ s.cfg.memSize → fetch s = .ok w →
    (decode w).opcode = .beq ∨ (decode w).opcode = .jalr → ¬ inMemory s (nextPc s (decode w)) →
    ∃ t u, step s = .next t ∧ t.status = .running ∧ t.pc = nextPc s (decode w) ∧ counted (decode w).opcode s t ∧
      step t = .next u ∧ u.status = .errOutOfBounds ∧ u.faultInfo = nextPc s (decode w) ∧ u.pc = t.pc ∧ uncounted t u

/-! ## Invariants and stops -/

/-- Every step keeps the legal states: legal parameters, canonical memory that lists only cells of the `MEM_SIZE` words,
`used_len <= MEM_SIZE`, and never ERR_ILLEGAL_OPCODE (R3, R28, R29, R30, R76). -/
def Obligations.StepKeepsLegalStates : Prop :=
  ∀ s t : State, s.legal → step s = .next t → t.legal

/-- In a legal state a step always answers a next state: nothing faults and nothing is refused (R2, R91, R157 for a RUNNING
state). A legal state may be terminal: R98 says that no step exists there, and that the model's step then answers the
same state is its own choice (log entry 4). -/
def Obligations.LegalStatesAlwaysStep : Prop :=
  ∀ s : State, s.legal → ∃ t, step s = .next t

/-- The state after reset is legal. -/
def Obligations.ResetIsLegal : Prop := State.reset.legal

/-- Every step keeps the shape of the trace: one Snapshot for each completed instruction, one more for a step that
raised, then nothing while RUNNING, Halted after a HALT, and Error with the exception of `status` and `fault_info` after
a raise (R95, R96, R97, R99). That the trace is a field of State is log entry 3. -/
def Obligations.StepKeepsTraceShape : Prop :=
  ∀ s t : State, s.traceShape → step s = .next t → t.traceShape

/-- Every step keeps this: a terminal state explains itself. In HALTED the word at pc is a HALT; in ERR_OUT_OF_BOUNDS pc
is outside the memory and recorded, or the word at pc is a LW or SW whose address is and is recorded; in ERR_BAD_DEST
the word at pc is an ADD or NAND whose destination is out of range under FAULT and is recorded (R90, R140, R151, R152). -/
def Obligations.StepKeepsTerminalStatesExplained : Prop :=
  ∀ s t : State, s.explained → step s = .next t → t.explained

/-- The state after reset has a trace of that shape, empty by log entry 3, and explains itself. -/
def Obligations.ResetMeetsTraceInvariants : Prop := State.reset.traceShape ∧ State.reset.explained

/-- A step stops in one case only: a RUNNING state whose snapshot would read words that do not exist. It never refuses.
The stop is the model's choice (log entry 6; 10_state.md section 4 has the host keep `used_len <= MEM_SIZE`). -/
def Obligations.StepStopsOnlyOnOversizeSnapshot : Prop :=
  ∀ s : State, (step s = .fault .snapshotOutsideMemory ↔ s.status = .running ∧ s.cfg.memSize < s.usedLen) ∧
    ∀ r : Refusal, step s ≠ .refused r

/-! ## Reset, launch and the host's ports -/

/-- The values of R37 and R180, in the state after reset and in the state that asserting reset leads to from any state;
every memory word reads 0; the parameters are the defaults of R3 to R5 in the first and the machine's own in the second.
Of the clauses on the state that asserting reset leads to, three are the model's: the empty trace (log entry 3); RUNNING
as soon as reset is asserted (log entry 9; R37 and R182 give it at the release, and R180 does not list `status`); and
memory and `used_len` cleared at once (log entry 14; R180 fixes both only when the reset period ends, and leaves how
memory is cleared to the implementation). -/
def Obligations.ResetLeavesTheStatedValues : Prop :=
  ∀ (s r : State), r = State.reset ∨ r = assertReset s →
    (∀ i : RegIdx, r.x i = 0) ∧ r.pc = 0 ∧ (∀ j : Nat, r.mem.readWord j = 0) ∧ r.usedLen = 0 ∧ r.status = .running ∧
    r.instrCount = 0 ∧ r.cycleCount = 0 ∧ r.faultInfo = 0 ∧ r.trace = [] ∧
    State.reset.cfg.memSize = 65536 ∧ State.reset.cfg.destPolicy = .fault ∧ State.reset.cfg.cost = Cost.canonical ∧
    (assertReset s).cfg = s.cfg

/-- At the start of the first step after a launch every piece of state has the value of R37's table: the program's words
in order from 0, zero in every other word, `used_len` their number (R37; the spec's decision D13 for the counters and
`fault_info`). The empty trace is not in that table: it is the model's (log entry 3; R99 begins a run at the release, and
R180 has no event emitted before it). -/
def Obligations.LaunchLeavesResetState : Prop :=
  ∀ (s : State) (ws : List Word), s.cfg.legal → ws.length ≤ s.cfg.memSize →
    ∃ t, launch s ws = .next t ∧ (∀ i : RegIdx, t.x i = 0) ∧ t.pc = 0 ∧
      (∀ j v, ws[j]? = some v → t.mem.readWord j = v) ∧ (∀ j, ws.length ≤ j → t.mem.readWord j = 0) ∧
      t.usedLen = ws.length ∧ t.status = .running ∧ t.instrCount = 0 ∧ t.cycleCount = 0 ∧ t.faultInfo = 0 ∧
      t.trace = [] ∧ t.cfg = s.cfg

/-- A program longer than the memory, and a launch with `used_len > MEM_SIZE`, are refused (R183 lets a model do so; log
entry 7). -/
def Obligations.OversizeLaunchIsRefused : Prop :=
  ∀ (s : State) (ws : List Word) (loads : List (Word × Word)) (n : Word),
    (s.cfg.memSize < ws.length → launch s ws = .refused .programTooLong) ∧
    (s.cfg.memSize < n.toNat → release s loads n = .refused .usedLenOverMemory) ∧
    (n.toNat ≤ s.cfg.memSize → release s loads n = .next (resetPeriod s loads n))

/-- A load edge writes `M[signed(ld_addr)]` at a valid address and changes nothing else, the counters included; at any
other address it is ignored; the period's `used_len` is the sampled port (R181). -/
def Obligations.LoadEdgeWritesOrIgnores : Prop :=
  ∀ (s : State) (a v n : Word) (loads : List (Word × Word)),
    (inMemory s a → wordAt (loadEdge s a v) a = v ∧ sameBytesBut a.toInt.toNat s (loadEdge s a v) ∧
      sameRegs s (loadEdge s a v) ∧ (loadEdge s a v).pc = s.pc ∧ quiet s (loadEdge s a v) ∧ uncounted s (loadEdge s a v)) ∧
    (¬ inMemory s a → loadEdge s a v = s) ∧
    (resetPeriod s loads n).usedLen = n.toNat ∧
    (resetPeriod s (loads ++ [(a, v)]) n).mem = (loadEdge (resetPeriod s loads n) a v).mem

/-- A launched state is legal, has an empty run's trace (log entry 3) and explains itself: so every state of a run does. -/
def Obligations.LaunchedStatesMeetTheInvariants : Prop :=
  ∀ (s t : State) (ws : List Word), s.cfg.legal → launch s ws = .next t → t.legal ∧ t.traceShape ∧ t.explained

/-- The codes of `status`: RUNNING 0, HALTED 1, ERR_ILLEGAL_OPCODE 2, ERR_OUT_OF_BOUNDS 3, ERR_BAD_DEST 4; 5 to 7 are
never held (R30; the spec's decision D9). -/
def Obligations.StatusCodes : Prop :=
  Status.running.code = 0 ∧ Status.halted.code = 1 ∧ Status.errIllegalOpcode.code = 2 ∧
  Status.errOutOfBounds.code = 3 ∧ Status.errBadDest.code = 4 ∧ (∀ x : Status, x.code.toNat ≤ 4) ∧
  (∀ x y : Status, x.code = y.code → x = y)

/-- The host's ports: `dbg_mdata` is `M[signed(dbg_maddr)]` inside the memory and 0 outside, `dbg_rdata` is the register,
and the plain ports give `status`, pc, `fault_info` and the counters (R38; the spec's decision D2). -/
def Obligations.HostPortsShowTheState : Prop :=
  ∀ (s : State) (a : Word) (i : RegIdx), (inMemory s a → dbgMdata s a = wordAt s a) ∧
    (¬ inMemory s a → dbgMdata s a = 0) ∧ dbgRdata s i = s.x i ∧ (portsOut s).status = s.status.code ∧
    (portsOut s).pcOut = s.pc ∧ (portsOut s).faultInfo = s.faultInfo ∧ (portsOut s).instrCount = s.instrCount ∧
    (portsOut s).cycleCount = s.cycleCount

/-- Releasing reset after any loads starts a run: registers, pc, the counters and `fault_info` 0, RUNNING, `used_len` the
sampled port; a word holds the last load to its address, and 0 if no load was to it; and the first step runs the word at
address 0 (R180, R181, R182). -/
def Obligations.ReleaseStartsARun : Prop :=
  ∀ (s : State) (loads : List (Word × Word)) (n : Word), s.cfg.legal → n.toNat ≤ s.cfg.memSize →
    ∃ t, release s loads n = .next t ∧ (∀ i : RegIdx, t.x i = 0) ∧ t.pc = 0 ∧ t.status = .running ∧ t.instrCount = 0 ∧
      t.cycleCount = 0 ∧ t.faultInfo = 0 ∧ t.usedLen = n.toNat ∧ t.cfg = s.cfg ∧
      (∀ before a v after, loads = before ++ (a, v) :: after → inMemory s a → (∀ e ∈ after, e.1 ≠ a) →
        wordAt t a = v) ∧
      (∀ j : Nat, (∀ e ∈ loads, e.1.toInt ≠ j) → t.mem.readWord j = 0) ∧
      step t = exec (decode (t.mem.readWord 0)) (emitSnapshot t)
end

