-- ==== Sys2Proof/Laws/Decode.lean ====
section
/-! SUPPORT. The small lemmas of the encoding: the fields of an encoded word, the opcode map both ways, and what
`dest_ok` and `dest` are as numbers. -/

namespace Sys2Proof

/-! ### The opcode map -/

@[simp] theorem Opcode.ofBits_bits (op : Opcode) : Opcode.ofBits op.bits = op := by cases op <;> rfl

@[simp] theorem Opcode.bits_ofBits (v : BitVec 3) : (Opcode.ofBits v).bits = v := by
  revert v; decide

/-! ### Instructions and their fields -/

@[simp] theorem Instr.opcode_ofFields (op : Opcode) (a b : RegIdx) (i : Imm16) :
    (Instr.ofFields op a b i).opcode = op := by cases op <;> rfl

@[simp] theorem Instr.regA_ofFields (op : Opcode) (a b : RegIdx) (i : Imm16) :
    (Instr.ofFields op a b i).regA = a := by cases op <;> rfl

@[simp] theorem Instr.regB_ofFields (op : Opcode) (a b : RegIdx) (i : Imm16) :
    (Instr.ofFields op a b i).regB = b := by cases op <;> rfl

@[simp] theorem Instr.imm16_ofFields (op : Opcode) (a b : RegIdx) (i : Imm16) :
    (Instr.ofFields op a b i).imm16 = i := by cases op <;> rfl

theorem Instr.ofFields_self (i : Instr) : Instr.ofFields i.opcode i.regA i.regB i.imm16 = i := by
  cases i <;> rfl

/-! ### Fields as numbers -/

theorem opcodeField_toNat (w : Word) : (opcodeField w).toNat = w.toNat / 2 ^ 22 % 8 := by
  simp [opcodeField, BitVec.extractLsb'_toNat, Nat.shiftRight_eq_div_pow]

theorem regAField_val (w : Word) : (regAField w).val = w.toNat / 2 ^ 19 % 8 := by
  show (w.extractLsb' 19 3).toNat = _
  simp [BitVec.extractLsb'_toNat, Nat.shiftRight_eq_div_pow]

theorem regBField_val (w : Word) : (regBField w).val = w.toNat / 2 ^ 16 % 8 := by
  show (w.extractLsb' 16 3).toNat = _
  simp [BitVec.extractLsb'_toNat, Nat.shiftRight_eq_div_pow]

theorem imm16Field_toNat (w : Word) : (imm16Field w).toNat = w.toNat % 2 ^ 16 := by
  simp [imm16Field, BitVec.extractLsb'_toNat]

theorem destOf_val (imm16 : Imm16) : (destOf imm16).val = imm16.toNat % 8 := by
  show (imm16.extractLsb' 0 3).toNat = _
  simp [BitVec.extractLsb'_toNat]

theorem destOk_iff (imm16 : Imm16) : destOk imm16 = true ↔ imm16.toNat < 8 := by
  have h := imm16.isLt
  simp only [destOk, decide_eq_true_eq, ← BitVec.toNat_inj, BitVec.extractLsb'_toNat, Nat.shiftRight_eq_div_pow,
    show (0 : BitVec 13).toNat = 0 from rfl]
  omega

/-- Sign extension keeps the signed value (R74). -/
theorem sext32_toInt (imm16 : Imm16) : (sext32 imm16).toInt = imm16.toInt :=
  BitVec.toInt_signExtend_of_le (by decide)

/-- The encoded word as a sum: the fields do not overlap. -/
theorem enc_toNat (op : BitVec 3) (a b : RegIdx) (i : Imm16) :
    (enc op a b i).toNat = op.toNat * 2 ^ 22 + a.val * 2 ^ 19 + b.val * 2 ^ 16 + i.toNat := by
  have ho := op.isLt
  have ha := a.isLt
  have hb := b.isLt
  have hi := i.isLt
  have hor : ∀ {k x y : Nat}, y < 2 ^ k → x <<< k ||| y = x * 2 ^ k + y := fun {k x y} h => by
    rw [← Nat.shiftLeft_add_eq_or_of_lt h, Nat.shiftLeft_eq]
  simp only [enc, BitVec.toNat_append, BitVec.toNat_ofNat, show (0 : BitVec 7).toNat = 0 from rfl]
  rw [hor ho, hor (Nat.mod_lt _ (by decide)), hor (Nat.mod_lt _ (by decide)), hor hi]
  omega

/-! ### The fields of an encoded word -/

@[simp] theorem opcodeField_enc (op : BitVec 3) (a b : RegIdx) (i : Imm16) : opcodeField (enc op a b i) = op := by
  apply BitVec.eq_of_toNat_eq
  rw [opcodeField_toNat, enc_toNat]
  omega

@[simp] theorem regAField_enc (op : BitVec 3) (a b : RegIdx) (i : Imm16) : regAField (enc op a b i) = a := by
  apply Fin.ext
  rw [regAField_val, enc_toNat]
  omega

@[simp] theorem regBField_enc (op : BitVec 3) (a b : RegIdx) (i : Imm16) : regBField (enc op a b i) = b := by
  apply Fin.ext
  rw [regBField_val, enc_toNat]
  omega

@[simp] theorem imm16Field_enc (op : BitVec 3) (a b : RegIdx) (i : Imm16) : imm16Field (enc op a b i) = i := by
  apply BitVec.eq_of_toNat_eq
  rw [imm16Field_toNat, enc_toNat]
  omega

end Sys2Proof
end

