-- ==== Sys2Proof/Laws/Memory.lean ====
section
/-! SUPPORT. The laws of the memory array: reading after writing, cell by cell and word by word, for ANY list of cells;
and that every memory operation keeps the canonical form `Memory.wf` and the range of the listed cells. -/

namespace Sys2Proof.Machine

/-! ### Bytes of a word -/

theorem wordOfBytes_byteOfWord (w : Word) :
    wordOfBytes (byteOfWord w 0) (byteOfWord w 1) (byteOfWord w 2) (byteOfWord w 3) = w := by
  apply BitVec.eq_of_getLsbD_eq
  intro i hi
  have e1 : ¬ i < 8 → 8 + (i - 8) = i := by omega
  have e2 : ¬ i - 8 < 8 → 16 + (i - 8 - 8) = i := by omega
  have e3 : ¬ i - 8 - 8 < 8 → 24 + (i - 8 - 8 - 8) = i ∧ i - 8 - 8 - 8 < 8 := by omega
  simp only [wordOfBytes, byteOfWord, BitVec.getLsbD_append, BitVec.getLsbD_extractLsb', Nat.mul_zero, Nat.zero_add,
    Nat.reduceMul]
  split
  · simp [*]
  · split
    · simp [*]
    · split
      · simp [*]
      · simp [e3 ‹_›]

/-! ### One cell -/

@[simp] theorem Memory.readByte_nil (k : Nat) : Memory.readByte [] k = Memory.unlisted := rfl

theorem Memory.readByte_cons (c : Host.Cell) (m : Memory) (k : Nat) :
    Memory.readByte (c :: m) k = if c.1 = k then c.2 else Memory.readByte m k := rfl

theorem Memory.readByte_eraseByte_self (m : Memory) (k : Nat) : (m.eraseByte k).readByte k = Memory.unlisted := by
  induction m with
  | nil => rfl
  | cons c m ih =>
    by_cases h : c.1 = k
    · simpa [Memory.eraseByte, h] using ih
    · simpa [Memory.eraseByte, Memory.readByte_cons, h] using ih

theorem Memory.readByte_eraseByte_of_ne (m : Memory) {k j : Nat} (h : j ≠ k) :
    (m.eraseByte k).readByte j = m.readByte j := by
  induction m with
  | nil => rfl
  | cons c m ih =>
    by_cases hc : c.1 = k
    · have hj : c.1 ≠ j := fun e => h (e ▸ hc)
      simpa [Memory.eraseByte, Memory.readByte_cons, hc, hj, Ne.symm h] using ih
    · by_cases hj : c.1 = j
      · simp [Memory.eraseByte, Memory.readByte_cons, hj, h]
      · simpa [Memory.eraseByte, Memory.readByte_cons, hc, hj] using ih

theorem Memory.readByte_insertByte_of_ne (m : Memory) {k j : Nat} (v : Byte) (h : j ≠ k) :
    (m.insertByte k v).readByte j = m.readByte j := by
  induction m with
  | nil => simp [Memory.insertByte, Memory.readByte_cons, Ne.symm h]
  | cons c m ih =>
    by_cases hc : k < c.1
    · simp [Memory.insertByte, Memory.readByte_cons, hc, Ne.symm h]
    · simp [Memory.insertByte, Memory.readByte_cons, hc, ih]

theorem Memory.readByte_insertByte_self (m : Memory) (k : Nat) (v : Byte) (h : ∀ c ∈ m, c.1 ≠ k) :
    (m.insertByte k v).readByte k = v := by
  induction m with
  | nil => simp [Memory.insertByte, Memory.readByte_cons]
  | cons c m ih =>
    have hm : ∀ d ∈ m, d.1 ≠ k := fun d hd => h d (List.mem_cons_of_mem _ hd)
    by_cases hc : k < c.1
    · simp [Memory.insertByte, Memory.readByte_cons, hc]
    · simp [Memory.insertByte, Memory.readByte_cons, hc, h c, ih hm]

theorem Memory.mem_eraseByte {m : Memory} {k : Nat} {c : Host.Cell} (h : c ∈ m.eraseByte k) : c ∈ m ∧ c.1 ≠ k := by
  simpa [Memory.eraseByte] using h

theorem Memory.mem_insertByte {m : Memory} {k : Nat} {v : Byte} {c : Host.Cell} (h : c ∈ m.insertByte k v) :
    c = (k, v) ∨ c ∈ m := by
  induction m with
  | nil => simpa [Memory.insertByte] using h
  | cons d m ih =>
    by_cases hd : k < d.1
    · simpa [Memory.insertByte, hd] using h
    · rcases (by simpa [Memory.insertByte, hd] using h : c = d ∨ c ∈ Memory.insertByte m k v) with h | h
      · exact .inr (h ▸ List.mem_cons_self)
      · exact (ih h).imp id (List.mem_cons_of_mem _)

@[simp] theorem Memory.readByte_writeByte_self (m : Memory) (k : Nat) (v : Byte) : (m.writeByte k v).readByte k = v := by
  unfold Memory.writeByte
  split
  · rename_i h; rw [h, Memory.readByte_eraseByte_self]
  · exact Memory.readByte_insertByte_self _ _ _ fun c hc => (Memory.mem_eraseByte hc).2

theorem Memory.readByte_writeByte_of_ne (m : Memory) {k j : Nat} (v : Byte) (h : j ≠ k) :
    (m.writeByte k v).readByte j = m.readByte j := by
  unfold Memory.writeByte
  split
  · exact Memory.readByte_eraseByte_of_ne m h
  · rw [Memory.readByte_insertByte_of_ne _ _ h, Memory.readByte_eraseByte_of_ne m h]

/-! ### The canonical form -/

theorem Memory.wf_nil : Memory.wf [] := ⟨List.Pairwise.nil, by simp⟩

theorem Memory.eraseByte_wf {m : Memory} (h : m.wf) (k : Nat) : (m.eraseByte k).wf :=
  ⟨h.1.filter _, fun c hc => h.2 c (Memory.mem_eraseByte hc).1⟩

theorem Memory.insertByte_wf {m : Memory} (h : m.wf) {k : Nat} {v : Byte} (hk : ∀ c ∈ m, c.1 ≠ k)
    (hv : v ≠ Memory.unlisted) : (m.insertByte k v).wf := by
  refine ⟨?_, fun c hc => ?_⟩
  · have hp := h.1
    clear h
    induction m with
    | nil => simp [Memory.insertByte]
    | cons d m ih =>
      have hm : ∀ c ∈ m, c.1 ≠ k := fun c hc => hk c (List.mem_cons_of_mem _ hc)
      obtain ⟨hd, hp'⟩ := List.pairwise_cons.1 hp
      by_cases hlt : k < d.1
      · simp only [Memory.insertByte, if_pos hlt]
        refine List.pairwise_cons.2 ⟨fun c hc => ?_, hp⟩
        rcases List.mem_cons.1 hc with rfl | hc
        · exact hlt
        · exact lt_trans hlt (hd c hc)
      · simp only [Memory.insertByte, if_neg hlt]
        refine List.pairwise_cons.2 ⟨fun c hc => ?_, ih hm hp'⟩
        rcases Memory.mem_insertByte hc with rfl | hc
        · exact lt_of_le_of_ne (Nat.not_lt.1 hlt) (hk d List.mem_cons_self)
        · exact hd c hc
  · rcases Memory.mem_insertByte hc with rfl | hc
    · exact hv
    · exact h.2 c hc

/-- A byte write keeps the canonical form. -/
theorem Memory.writeByte_wf {m : Memory} (h : m.wf) (k : Nat) (v : Byte) : (m.writeByte k v).wf := by
  unfold Memory.writeByte
  split
  · exact Memory.eraseByte_wf h k
  · exact Memory.insertByte_wf (Memory.eraseByte_wf h k) (fun c hc => (Memory.mem_eraseByte hc).2) ‹_›

/-- A word write keeps the canonical form. -/
theorem Memory.writeWord_wf {m : Memory} (h : m.wf) (i : Nat) (v : Word) : (m.writeWord i v).wf :=
  Memory.writeByte_wf (Memory.writeByte_wf (Memory.writeByte_wf (Memory.writeByte_wf h _ _) _ _) _ _) _ _

/-- A byte write lists no cell but its own and those listed before. -/
theorem Memory.mem_writeByte {m : Memory} {k : Nat} {v : Byte} {c : Host.Cell} (h : c ∈ m.writeByte k v) :
    c.1 = k ∨ c ∈ m := by
  unfold Memory.writeByte at h
  split at h
  · exact .inr (Memory.mem_eraseByte h).1
  · rcases Memory.mem_insertByte h with rfl | h
    · exact .inl rfl
    · exact .inr (Memory.mem_eraseByte h).1

/-- A word write lists no cell but the four of its word and those listed before. -/
theorem Memory.mem_writeWord {m : Memory} {i : Nat} {v : Word} {c : Host.Cell} (h : c ∈ m.writeWord i v) :
    c.1 / 4 = i ∨ c ∈ m := by
  unfold Memory.writeWord at h
  rcases Memory.mem_writeByte h with h | h
  · left; omega
  rcases Memory.mem_writeByte h with h | h
  · left; omega
  rcases Memory.mem_writeByte h with h | h
  · left; omega
  rcases Memory.mem_writeByte h with h | h
  · left; omega
  · exact .inr h

/-! ### Words -/

/-- A word write leaves every cell outside its word. -/
theorem Memory.readByte_writeWord_of_ne (m : Memory) {i k : Nat} (v : Word) (h : k / 4 ≠ i) :
    (m.writeWord i v).readByte k = m.readByte k := by
  unfold Memory.writeWord
  rw [Memory.readByte_writeByte_of_ne _ _ (by omega), Memory.readByte_writeByte_of_ne _ _ (by omega),
    Memory.readByte_writeByte_of_ne _ _ (by omega), Memory.readByte_writeByte_of_ne _ _ (by omega)]

@[simp] theorem Memory.readWord_writeWord_self (m : Memory) (i : Nat) (v : Word) : (m.writeWord i v).readWord i = v := by
  have h0 : (m.writeWord i v).readByte (4 * i) = byteOfWord v 0 := by
    unfold Memory.writeWord
    rw [Memory.readByte_writeByte_of_ne _ _ (by omega), Memory.readByte_writeByte_of_ne _ _ (by omega),
      Memory.readByte_writeByte_of_ne _ _ (by omega), Memory.readByte_writeByte_self]
  have h1 : (m.writeWord i v).readByte (4 * i + 1) = byteOfWord v 1 := by
    unfold Memory.writeWord
    rw [Memory.readByte_writeByte_of_ne _ _ (by omega), Memory.readByte_writeByte_of_ne _ _ (by omega),
      Memory.readByte_writeByte_self]
  have h2 : (m.writeWord i v).readByte (4 * i + 2) = byteOfWord v 2 := by
    unfold Memory.writeWord
    rw [Memory.readByte_writeByte_of_ne _ _ (by omega), Memory.readByte_writeByte_self]
  have h3 : (m.writeWord i v).readByte (4 * i + 3) = byteOfWord v 3 := by
    unfold Memory.writeWord
    rw [Memory.readByte_writeByte_self]
  rw [Memory.readWord, h0, h1, h2, h3, wordOfBytes_byteOfWord]

/-- A word read sees only the four cells of its word. -/
theorem Memory.readWord_congr {m m' : Memory} {i : Nat} (h : ∀ k, k / 4 = i → m'.readByte k = m.readByte k) :
    m'.readWord i = m.readWord i := by
  unfold Memory.readWord
  rw [h _ (by omega), h _ (by omega), h _ (by omega), h _ (by omega)]

theorem Memory.readWord_writeWord_of_ne (m : Memory) {i j : Nat} (v : Word) (h : j ≠ i) :
    (m.writeWord i v).readWord j = m.readWord j :=
  Memory.readWord_congr fun k hk => Memory.readByte_writeWord_of_ne m v (by omega)

/-- Where nothing was loaded or stored, a word reads as zero (10_state.md R37). -/
@[simp] theorem Memory.readWord_nil (i : Nat) : Memory.readWord [] i = 0 := by
  simp only [Memory.readWord, Memory.readByte_nil]; decide

end Sys2Proof.Machine
end

