-- ==== Sys2Proof/Laws/State.lean ====
section
/-! SUPPORT. One lemma per field per update of State, so that no later proof unfolds a record update: the register write,
`emit`, `emitSnapshot`, `raise`, `complete`, `assertReset` and `placeFetch`; and the fields of the state after reset. -/

namespace Sys2Proof.Machine

/-! ### The register write port -/

@[simp] theorem State.setX_cfg (s : State) (i : RegIdx) (v : Word) : (s.setX i v).cfg = s.cfg := rfl
@[simp] theorem State.setX_regs (s : State) (i : RegIdx) (v : Word) : (s.setX i v).regs = s.regs.set i.val v := rfl
@[simp] theorem State.setX_pc (s : State) (i : RegIdx) (v : Word) : (s.setX i v).pc = s.pc := rfl
@[simp] theorem State.setX_mem (s : State) (i : RegIdx) (v : Word) : (s.setX i v).mem = s.mem := rfl
@[simp] theorem State.setX_usedLen (s : State) (i : RegIdx) (v : Word) : (s.setX i v).usedLen = s.usedLen := rfl
@[simp] theorem State.setX_status (s : State) (i : RegIdx) (v : Word) : (s.setX i v).status = s.status := rfl
@[simp] theorem State.setX_instrCount (s : State) (i : RegIdx) (v : Word) : (s.setX i v).instrCount = s.instrCount := rfl
@[simp] theorem State.setX_cycleCount (s : State) (i : RegIdx) (v : Word) : (s.setX i v).cycleCount = s.cycleCount := rfl
@[simp] theorem State.setX_faultInfo (s : State) (i : RegIdx) (v : Word) : (s.setX i v).faultInfo = s.faultInfo := rfl
@[simp] theorem State.setX_trace (s : State) (i : RegIdx) (v : Word) : (s.setX i v).trace = s.trace := rfl

/-! ### Emitting an event -/

@[simp] theorem emit_cfg (s : State) (e : Event) : (emit s e).cfg = s.cfg := rfl
@[simp] theorem emit_regs (s : State) (e : Event) : (emit s e).regs = s.regs := rfl
@[simp] theorem emit_pc (s : State) (e : Event) : (emit s e).pc = s.pc := rfl
@[simp] theorem emit_mem (s : State) (e : Event) : (emit s e).mem = s.mem := rfl
@[simp] theorem emit_usedLen (s : State) (e : Event) : (emit s e).usedLen = s.usedLen := rfl
@[simp] theorem emit_status (s : State) (e : Event) : (emit s e).status = s.status := rfl
@[simp] theorem emit_instrCount (s : State) (e : Event) : (emit s e).instrCount = s.instrCount := rfl
@[simp] theorem emit_cycleCount (s : State) (e : Event) : (emit s e).cycleCount = s.cycleCount := rfl
@[simp] theorem emit_faultInfo (s : State) (e : Event) : (emit s e).faultInfo = s.faultInfo := rfl
@[simp] theorem emit_trace (s : State) (e : Event) : (emit s e).trace = s.trace ++ [e] := rfl

/-! ### Emitting the Snapshot -/

@[simp] theorem emitSnapshot_cfg (s : State) : (emitSnapshot s).cfg = s.cfg := rfl
@[simp] theorem emitSnapshot_regs (s : State) : (emitSnapshot s).regs = s.regs := rfl
@[simp] theorem emitSnapshot_pc (s : State) : (emitSnapshot s).pc = s.pc := rfl
@[simp] theorem emitSnapshot_mem (s : State) : (emitSnapshot s).mem = s.mem := rfl
@[simp] theorem emitSnapshot_usedLen (s : State) : (emitSnapshot s).usedLen = s.usedLen := rfl
@[simp] theorem emitSnapshot_status (s : State) : (emitSnapshot s).status = s.status := rfl
@[simp] theorem emitSnapshot_instrCount (s : State) : (emitSnapshot s).instrCount = s.instrCount := rfl
@[simp] theorem emitSnapshot_cycleCount (s : State) : (emitSnapshot s).cycleCount = s.cycleCount := rfl
@[simp] theorem emitSnapshot_faultInfo (s : State) : (emitSnapshot s).faultInfo = s.faultInfo := rfl
@[simp] theorem emitSnapshot_trace (s : State) : (emitSnapshot s).trace = s.trace ++ [.snapshot s.pc (usedMemory s) s.regs] := rfl

/-! ### Taking an exception -/

@[simp] theorem raise_cfg (s : State) (r : Raised) : (raise s r).cfg = s.cfg := rfl
@[simp] theorem raise_regs (s : State) (r : Raised) : (raise s r).regs = s.regs := rfl
@[simp] theorem raise_pc (s : State) (r : Raised) : (raise s r).pc = s.pc := rfl
@[simp] theorem raise_mem (s : State) (r : Raised) : (raise s r).mem = s.mem := rfl
@[simp] theorem raise_usedLen (s : State) (r : Raised) : (raise s r).usedLen = s.usedLen := rfl
@[simp] theorem raise_status (s : State) (r : Raised) : (raise s r).status = r.exc.status := rfl
@[simp] theorem raise_instrCount (s : State) (r : Raised) : (raise s r).instrCount = s.instrCount := rfl
@[simp] theorem raise_cycleCount (s : State) (r : Raised) : (raise s r).cycleCount = s.cycleCount := rfl
@[simp] theorem raise_faultInfo (s : State) (r : Raised) : (raise s r).faultInfo = r.info := rfl
@[simp] theorem raise_trace (s : State) (r : Raised) : (raise s r).trace = s.trace ++ [.error r.exc r.info] := rfl

/-! ### Completing a step -/

@[simp] theorem complete_cfg (op : Opcode) (p : Word) (s : State) : (complete op p s).cfg = s.cfg := rfl
@[simp] theorem complete_regs (op : Opcode) (p : Word) (s : State) : (complete op p s).regs = s.regs := rfl
@[simp] theorem complete_pc (op : Opcode) (p : Word) (s : State) : (complete op p s).pc = p := rfl
@[simp] theorem complete_mem (op : Opcode) (p : Word) (s : State) : (complete op p s).mem = s.mem := rfl
@[simp] theorem complete_usedLen (op : Opcode) (p : Word) (s : State) : (complete op p s).usedLen = s.usedLen := rfl
@[simp] theorem complete_status (op : Opcode) (p : Word) (s : State) : (complete op p s).status = s.status := rfl
@[simp] theorem complete_instrCount (op : Opcode) (p : Word) (s : State) : (complete op p s).instrCount = s.instrCount + 1 := rfl
@[simp] theorem complete_cycleCount (op : Opcode) (p : Word) (s : State) : (complete op p s).cycleCount = s.cycleCount + s.cfg.cost.of op := rfl
@[simp] theorem complete_faultInfo (op : Opcode) (p : Word) (s : State) : (complete op p s).faultInfo = s.faultInfo := rfl
@[simp] theorem complete_trace (op : Opcode) (p : Word) (s : State) : (complete op p s).trace = s.trace := rfl

/-! ### The state after reset (10_state.md R37) -/

@[simp] theorem State.reset_cfg : State.reset.cfg = Config.default := rfl
@[simp] theorem State.reset_regs : State.reset.regs = Vector.replicate 8 0 := rfl
@[simp] theorem State.reset_pc : State.reset.pc = 0 := rfl
@[simp] theorem State.reset_mem : State.reset.mem = [] := rfl
@[simp] theorem State.reset_usedLen : State.reset.usedLen = 0 := rfl
@[simp] theorem State.reset_status : State.reset.status = .running := rfl
@[simp] theorem State.reset_instrCount : State.reset.instrCount = 0 := rfl
@[simp] theorem State.reset_cycleCount : State.reset.cycleCount = 0 := rfl
@[simp] theorem State.reset_faultInfo : State.reset.faultInfo = 0 := rfl
@[simp] theorem State.reset_trace : State.reset.trace = [] := rfl

/-! ### Asserting reset (70_reset_and_hazards.md R180) -/

@[simp] theorem assertReset_cfg (s : State) : (assertReset s).cfg = s.cfg := rfl
@[simp] theorem assertReset_regs (s : State) : (assertReset s).regs = Vector.replicate 8 0 := rfl
@[simp] theorem assertReset_pc (s : State) : (assertReset s).pc = 0 := rfl
@[simp] theorem assertReset_mem (s : State) : (assertReset s).mem = [] := rfl
@[simp] theorem assertReset_usedLen (s : State) : (assertReset s).usedLen = 0 := rfl
@[simp] theorem assertReset_status (s : State) : (assertReset s).status = .running := rfl
@[simp] theorem assertReset_instrCount (s : State) : (assertReset s).instrCount = 0 := rfl
@[simp] theorem assertReset_cycleCount (s : State) : (assertReset s).cycleCount = 0 := rfl
@[simp] theorem assertReset_faultInfo (s : State) : (assertReset s).faultInfo = 0 := rfl
@[simp] theorem assertReset_trace (s : State) : (assertReset s).trace = [] := rfl

/-! ### Register reads -/

@[simp] theorem State.x_setX_self (s : State) (i : RegIdx) (v : Word) : (s.setX i v).x i = v := by
  simp [State.x]

theorem State.x_setX_of_ne (s : State) {i j : RegIdx} (v : Word) (h : j ≠ i) : (s.setX i v).x j = s.x j := by
  have h' : i.val ≠ j.val := fun e => h (Fin.ext e.symm)
  simp [State.x, h']

theorem State.x_setX (s : State) (i j : RegIdx) (v : Word) : (s.setX i v).x j = if j = i then v else s.x j := by
  split
  · rename_i h; rw [h, State.x_setX_self]
  · exact State.x_setX_of_ne s v ‹_›

/-- A register read sees only the register file. -/
theorem State.x_congr {s t : State} (h : t.regs = s.regs) (i : RegIdx) : t.x i = s.x i := by
  simp [State.x, h]

@[simp] theorem emit_x (s : State) (e : Event) (i : RegIdx) : (emit s e).x i = s.x i := rfl

@[simp] theorem emitSnapshot_x (s : State) (i : RegIdx) : (emitSnapshot s).x i = s.x i := rfl

@[simp] theorem raise_x (s : State) (r : Raised) (i : RegIdx) : (raise s r).x i = s.x i := rfl

@[simp] theorem complete_x (op : Opcode) (p : Word) (s : State) (i : RegIdx) : (complete op p s).x i = s.x i := rfl

@[simp] theorem State.reset_x (i : RegIdx) : State.reset.x i = 0 := by
  simp [State.x]

@[simp] theorem assertReset_x (s : State) (i : RegIdx) : (assertReset s).x i = 0 := State.reset_x i

end Sys2Proof.Machine
end

