-- ==== Sys2Proof/Laws/Ops.lean ====
section
/-! SUPPORT. One lemma per shared operation that says everything it can do: the address check, the memory primitives,
`commit`, destination resolution, and the normal form of `exec` and the inversion of `step` built on them. -/

namespace Sys2Proof.Machine

/-! ### Addresses (20_memory.md R50) -/

theorem State.addrOk_iff (s : State) (a : Word) :
    s.addrOk a = true ↔ 0 ≤ a.toInt ∧ a.toInt < s.cfg.memSize := by
  simp [State.addrOk]

theorem addrOk_of_inMemory {s : State} {a : Word} (h : inMemory s a) : s.addrOk a = true := (s.addrOk_iff a).2 h

theorem addrOk_of_not_inMemory {s : State} {a : Word} (h : ¬ inMemory s a) : s.addrOk a = false := by
  rw [← Bool.not_eq_true, s.addrOk_iff a]; exact h

theorem State.addrOk_congr {s t : State} (h : t.cfg = s.cfg) (a : Word) : t.addrOk a = s.addrOk a := by
  simp [State.addrOk, h]

theorem State.wordIndex_lt {s : State} {a : Word} (h : s.addrOk a = true) : wordIndex a < s.cfg.memSize := by
  have := (s.addrOk_iff a).1 h
  unfold wordIndex
  omega

/-- Index `i` of a legal memory is named by the address `i`. -/
theorem toInt_ofNat_of_lt {i : Nat} (h : i < 2 ^ 31) : (BitVec.ofNat 32 i).toInt = i := by
  rw [BitVec.toInt_eq_toNat_cond, BitVec.toNat_ofNat]
  split <;> omega

theorem wordIndex_ofNat {i : Nat} (h : i < 2 ^ 31) : wordIndex (BitVec.ofNat 32 i) = i := by
  simp [wordIndex, toInt_ofNat_of_lt h]

/-! ### Memory primitives (20_memory.md R52, R53) -/

theorem memRead_of_ok {s : State} {a : Word} (h : s.addrOk a = true) :
    memRead s a = .ok (s.mem.readWord (wordIndex a)) := by simp [memRead, h]

theorem memRead_of_not_ok {s : State} {a : Word} (h : s.addrOk a = false) :
    memRead s a = .error ⟨.outOfBounds, a⟩ := by simp [memRead, h]

theorem memRead_congr {s t : State} (hc : t.cfg = s.cfg) (hm : t.mem = s.mem) (a : Word) :
    memRead t a = memRead s a := by simp [memRead, State.addrOk_congr hc, hm]

theorem memRead_cases (s : State) (a : Word) :
    (s.addrOk a = true ∧ memRead s a = .ok (s.mem.readWord (wordIndex a))) ∨
      (s.addrOk a = false ∧ memRead s a = .error ⟨.outOfBounds, a⟩) := by
  cases h : s.addrOk a
  · exact .inr ⟨rfl, memRead_of_not_ok h⟩
  · exact .inl ⟨rfl, memRead_of_ok h⟩

theorem memWrite_of_ok {s : State} {a : Word} (v : Word) (h : s.addrOk a = true) :
    memWrite s a v = .ok { s with mem := s.mem.writeWord (wordIndex a) v } := by simp [memWrite, h]

theorem memWrite_of_not_ok {s : State} {a : Word} (v : Word) (h : s.addrOk a = false) :
    memWrite s a v = .error ⟨.outOfBounds, a⟩ := by simp [memWrite, h]

theorem memWrite_cases (s : State) (a v : Word) :
    (s.addrOk a = true ∧ memWrite s a v = .ok { s with mem := s.mem.writeWord (wordIndex a) v }) ∨
      (s.addrOk a = false ∧ memWrite s a v = .error ⟨.outOfBounds, a⟩) := by
  cases h : s.addrOk a
  · exact .inr ⟨rfl, memWrite_of_not_ok v h⟩
  · exact .inl ⟨rfl, memWrite_of_ok v h⟩

/-- Every memory write keeps the canonical form. -/
theorem memWrite_wf {s t : State} {a v : Word} (h : memWrite s a v = .ok t) (hm : s.mem.wf) : t.mem.wf := by
  obtain ⟨-, e⟩ | ⟨-, e⟩ := memWrite_cases s a v
  · obtain rfl := Except.ok.inj (e.symm.trans h)
    exact Memory.writeWord_wf hm _ _
  · rw [e] at h; cases h

/-- The memory of `State.reset` is canonical. -/
theorem State.reset_mem_wf : State.reset.mem.wf := Memory.wf_nil

/-- A load edge changes memory alone (70_reset_and_hazards.md R181). -/
theorem loadEdge_eq (s : State) (a v : Word) :
    loadEdge s a v = { s with mem := if s.addrOk a then s.mem.writeWord (wordIndex a) v else s.mem } := by
  unfold loadEdge
  obtain ⟨h, e⟩ | ⟨h, e⟩ := memWrite_cases s a v <;> simp [e, h]

/-- A load edge keeps the canonical form. -/
theorem loadEdge_wf {s : State} (a v : Word) (hm : s.mem.wf) : (loadEdge s a v).mem.wf := by
  rw [loadEdge_eq]
  dsimp only
  split
  · exact Memory.writeWord_wf hm _ _
  · exact hm

/-- Load edges change memory alone. -/
theorem loads_frame (loads : List (Word × Word)) (s : State) : loads.foldl (fun t e => loadEdge t e.1 e.2) s =
    { s with mem := (loads.foldl (fun t e => loadEdge t e.1 e.2) s).mem } := by
  induction loads generalizing s with
  | nil => rfl
  | cons c l ih => rw [List.foldl_cons, ih, loadEdge_eq]

/-- A reset period leaves the reset values, the sampled `used_len`, and memory as the loads leave it. -/
theorem resetPeriod_eq (s : State) (loads : List (Word × Word)) (n : Word) : resetPeriod s loads n =
    { assertReset s with
      mem := (loads.foldl (fun t e => loadEdge t e.1 e.2) (assertReset s)).mem, usedLen := n.toNat } := by
  rw [resetPeriod, loads_frame]

/-- A word that no load addresses keeps its value. -/
theorem loads_readWord_of_ne (loads : List (Word × Word)) (s : State) {j : Nat}
    (h : ∀ e ∈ loads, 0 ≤ e.1.toInt → e.1.toInt ≠ j) :
    (loads.foldl (fun t e => loadEdge t e.1 e.2) s).mem.readWord j = s.mem.readWord j := by
  induction loads generalizing s with
  | nil => rfl
  | cons c l ih =>
    rw [List.foldl_cons, ih _ fun e he => h e (List.mem_cons_of_mem _ he), loadEdge_eq]
    dsimp only
    split
    · next ho =>
      have h0 := ((s.addrOk_iff _).1 ho).1
      have hne := h c List.mem_cons_self h0
      exact Memory.readWord_writeWord_of_ne _ _ (by unfold wordIndex; omega)
    · rfl

/-- Placing an instruction keeps the canonical form. -/
theorem placeFetch_wf {s : State} (w : Word) (hm : s.mem.wf) : (placeFetch s w).mem.wf :=
  Memory.writeWord_wf hm _ _

/-! ### Committing, and the destination of ADD and NAND (41_alu.md R112) -/

@[simp] theorem commit_ok {α : Type} (s : State) (v : α) (k : α → State) : commit s (.ok v) k = .next (k v) := rfl

@[simp] theorem commit_error {α : Type} (s : State) (r : Raised) (k : α → State) :
    commit s (.error r) k = .next (raise s r) := rfl

theorem resolveDest_of_ok {p : DestPolicy} {imm16 : Imm16} (h : imm16.toNat < 8 ∨ p = .mask3) :
    resolveDest p imm16 = .ok (destOf imm16) := by
  unfold resolveDest
  split
  · rfl
  · obtain h | rfl := h
    · exact absurd ((destOk_iff imm16).2 h) ‹_›
    · rfl

theorem resolveDest_of_not_ok {p : DestPolicy} {imm16 : Imm16} (h : ¬ (imm16.toNat < 8 ∨ p = .mask3)) :
    resolveDest p imm16 = .error ⟨.badDestination, sext32 imm16⟩ := by
  have h1 : destOk imm16 = false := by
    rw [← Bool.not_eq_true, destOk_iff]; exact fun e => h (.inl e)
  have h2 : p = .fault := by cases p <;> simp_all
  simp [resolveDest, h1, h2]

/-! ### The normal form of `exec` -/

/-- What a completing instruction writes besides pc and the counters. -/
def written (s : State) : Instr → State
  | .add a b imm16 => s.setX (destOf imm16) (s.x a + s.x b)
  | .nand a b imm16 => s.setX (destOf imm16) (~~~(s.x a &&& s.x b))
  | .lw a b imm16 => s.setX a (s.mem.readWord (wordIndex (effAddr s b imm16)))
  | .sw a b imm16 => { s with mem := s.mem.writeWord (wordIndex (effAddr s b imm16)) (s.x a) }
  | .beq _ _ _ => s
  | .jalr a _ _ => s.setX a s.pc1
  | .halt _ _ _ => { emit s .halted with status := .halted }
  | .noop _ _ _ => s

/-- `exec` makes the instruction's own check; if it fails the exception is taken, and if not the step completes. -/
theorem exec_eq (i : Instr) (s : State) :
    exec i s = match ownCheck s i with
      | some r => .next (raise s r)
      | none => .next (complete i.opcode (nextPc s i) (written s i)) := by
  have haddr : ∀ a : Word, s.addrOk a = true ↔ 0 ≤ a.toInt ∧ a.toInt < s.cfg.memSize := s.addrOk_iff
  have hdest : ∀ (op : AluOp) (c : Opcode) (a b : RegIdx) (imm16 : Imm16), execAlu op c a b imm16 s =
      if imm16.toNat < 8 ∨ s.cfg.destPolicy = .mask3 then
        .next (complete c s.pc1 (s.setX (destOf imm16) (aluY op (s.x a) (s.x b))))
      else .next (raise s ⟨.badDestination, sext32 imm16⟩) := fun op c a b imm16 => by
    unfold execAlu
    split
    · rw [resolveDest_of_ok ‹_›, commit_ok]
    · rw [resolveDest_of_not_ok ‹_›, commit_error]
  cases i with
  | add a b imm16 =>
    simp only [exec, execAdd, hdest, ownCheck, accessAddr, destImm]
    split <;> rfl
  | nand a b imm16 =>
    simp only [exec, execNand, hdest, ownCheck, accessAddr, destImm]
    split <;> rfl
  | lw a b imm16 =>
    simp only [exec, execLw, ownCheck, accessAddr]
    obtain ⟨h, e⟩ | ⟨h, e⟩ := memRead_cases s (effAddr s b imm16)
    · rw [e, if_pos ((haddr _).1 h)]; rfl
    · rw [e, if_neg (fun c => by simp [(haddr _).2 c] at h)]; rfl
  | sw a b imm16 =>
    simp only [exec, execSw, ownCheck, accessAddr]
    obtain ⟨h, e⟩ | ⟨h, e⟩ := memWrite_cases s (effAddr s b imm16) (s.x a)
    · rw [e, if_pos ((haddr _).1 h)]; rfl
    · rw [e, if_neg (fun c => by simp [(haddr _).2 c] at h)]; rfl
  | beq a b imm16 =>
    show Host.Outcome.next _ = Host.Outcome.next _
    simp only [aluEq, beq_iff_eq, branchTarget, State.pc1]
    rfl
  | jalr a b imm16 => rfl
  | halt a b imm16 => rfl
  | noop a b imm16 => rfl

theorem exec_of_check_none {i : Instr} {s : State} (h : ownCheck s i = none) :
    exec i s = .next (complete i.opcode (nextPc s i) (written s i)) := by rw [exec_eq, h]

theorem exec_of_check_some {i : Instr} {s : State} {r : Raised} (h : ownCheck s i = some r) :
    exec i s = .next (raise s r) := by rw [exec_eq, h]

/-- Inversion of `exec`. -/
theorem exec_cases {i : Instr} {s t : State} (h : exec i s = .next t) :
    (ownCheck s i = none ∧ t = complete i.opcode (nextPc s i) (written s i)) ∨
      ∃ r, ownCheck s i = some r ∧ t = raise s r := by
  rw [exec_eq] at h
  cases hc : ownCheck s i with
  | none => rw [hc] at h; exact .inl ⟨rfl, (Host.Outcome.next.inj h).symm⟩
  | some r => rw [hc] at h; exact .inr ⟨r, rfl, (Host.Outcome.next.inj h).symm⟩

/-- The check of a LW or SW. -/
theorem ownCheck_of_access {s : State} {i : Instr} {ea : Word} (h : accessAddr s i = some ea) :
    ownCheck s i = if inMemory s ea then none else some ⟨.outOfBounds, ea⟩ := by
  unfold ownCheck
  rw [h]

/-- The check of an ADD or NAND. -/
theorem ownCheck_of_dest {s : State} {i : Instr} {imm16 : Imm16} (h : destImm i = some imm16) :
    ownCheck s i = if imm16.toNat < 8 ∨ s.cfg.destPolicy = .mask3 then none
      else some ⟨.badDestination, sext32 imm16⟩ := by
  cases i <;> simp_all [ownCheck, accessAddr, destImm]

/-- The check reads only the parameters and the address accessed. -/
theorem ownCheck_congr_addr {s t : State} {i : Instr} (hc : t.cfg = s.cfg) (ha : accessAddr t i = accessAddr s i) :
    ownCheck t i = ownCheck s i := by
  simp only [ownCheck, inMemory, hc, ha]

/-- The check reads only the parameters and the registers. -/
theorem ownCheck_congr {s t : State} (hc : t.cfg = s.cfg) (hr : t.regs = s.regs) (i : Instr) :
    ownCheck t i = ownCheck s i :=
  ownCheck_congr_addr hc (by cases i <;> simp [accessAddr, effAddr, State.x_congr hr])

/-- The check raises OutOfBounds or BadDestination, nothing else. -/
theorem ownCheck_exc {s : State} {i : Instr} {r : Raised} (h : ownCheck s i = some r) :
    (r.exc = .outOfBounds ∧ (accessAddr s i).isSome) ∨ (r.exc = .badDestination ∧ (destImm i).isSome) := by
  cases i <;> simp only [ownCheck, accessAddr, destImm] at h <;> (try split at h) <;> cases h <;>
    simp [accessAddr, destImm]

/-- What the check raises leads to an error state. -/
theorem ownCheck_isError {s : State} {i : Instr} {r : Raised} (h : ownCheck s i = some r) :
    r.exc.status.isError = true := by
  obtain ⟨e, -⟩ | ⟨e, -⟩ := ownCheck_exc h <;> rw [e] <;> rfl

/-- `raise` does what `raisedTo` says. -/
theorem raisedTo_raise (s : State) (e : Exc) (info : Word) : raisedTo s (raise s ⟨e, info⟩) e info :=
  ⟨rfl, rfl, rfl, rfl, fun _ => rfl, rfl, ⟨rfl, rfl⟩, rfl, rfl⟩

/-! ### What a completing instruction leaves alone -/

@[simp] theorem written_cfg (s : State) (i : Instr) : (written s i).cfg = s.cfg := by cases i <;> rfl
@[simp] theorem written_pc (s : State) (i : Instr) : (written s i).pc = s.pc := by cases i <;> rfl
@[simp] theorem written_usedLen (s : State) (i : Instr) : (written s i).usedLen = s.usedLen := by cases i <;> rfl
@[simp] theorem written_instrCount (s : State) (i : Instr) : (written s i).instrCount = s.instrCount := by cases i <;> rfl
@[simp] theorem written_cycleCount (s : State) (i : Instr) : (written s i).cycleCount = s.cycleCount := by cases i <;> rfl
@[simp] theorem written_faultInfo (s : State) (i : Instr) : (written s i).faultInfo = s.faultInfo := by cases i <;> rfl

theorem written_status (s : State) (i : Instr) :
    (written s i).status = if i.opcode = .halt then .halted else s.status := by cases i <;> rfl

theorem written_trace (s : State) (i : Instr) :
    (written s i).trace = if i.opcode = .halt then s.trace ++ [.halted] else s.trace := by cases i <;> rfl

theorem written_x_of_ne (s : State) {i : Instr} {k : RegIdx} (h : writtenReg i ≠ some k) :
    (written s i).x k = s.x k := by
  cases i <;> first | rfl | exact State.x_setX_of_ne _ _ (fun e => h (e ▸ rfl))

theorem written_mem (s : State) {i : Instr} (h : storeAddr s i = none) : (written s i).mem = s.mem := by
  cases i <;> first | rfl | simp [storeAddr] at h

theorem written_regs (s : State) {i : Instr} (h : writtenReg i = none) : (written s i).regs = s.regs := by
  cases i <;> first | rfl | simp [writtenReg] at h

/-! ### Inversion of `step` -/

theorem fetch_cases (s : State) :
    (s.addrOk s.pc = true ∧ fetch s = .ok (s.mem.readWord (wordIndex s.pc))) ∨
      (s.addrOk s.pc = false ∧ fetch s = .error ⟨.outOfBounds, s.pc⟩) := memRead_cases s s.pc

theorem step_of_fetch {s : State} (hr : s.status = .running) (hf : snapshotFits s = true) {w : Word}
    (hw : fetch s = .ok w) : step s = exec (decode w) (emitSnapshot s) := by
  simp [step, hr, hf, hw]

theorem step_of_fetch_error {s : State} (hr : s.status = .running) (hf : snapshotFits s = true) {r : Raised}
    (hw : fetch s = .error r) : step s = .next (raise (emitSnapshot s) r) := by
  simp [step, hr, hf, hw]

/-- Inversion of `step`: what a next state can be. -/
theorem step_cases {s t : State} (h : step s = .next t) :
    (s.status ≠ .running ∧ t = s) ∨
      (s.status = .running ∧ snapshotFits s = true ∧
        ((fetch s = .error ⟨.outOfBounds, s.pc⟩ ∧ t = raise (emitSnapshot s) ⟨.outOfBounds, s.pc⟩) ∨
          ∃ w, fetch s = .ok w ∧ exec (decode w) (emitSnapshot s) = .next t)) := by
  by_cases hr : s.status = .running
  · right
    cases hf : snapshotFits s with
    | false => simp [step, hr, hf] at h
    | true =>
      refine ⟨hr, rfl, ?_⟩
      obtain ⟨-, e⟩ | ⟨-, e⟩ := fetch_cases s
      · exact .inr ⟨_, e, (step_of_fetch hr hf e).symm.trans h⟩
      · exact .inl ⟨e, (Host.Outcome.next.inj ((step_of_fetch_error hr hf e).symm.trans h)).symm⟩
  · exact .inl ⟨hr, by simpa [step, hr, eq_comm] using h⟩

end Sys2Proof.Machine
end

