-- ==== Sys2Proof/Laws/PerInstr.lean ====
section
/-! SUPPORT. The per-instruction family FieldsReadBack: the fields of an instruction's word are the instruction's own, and
the seven bits above them are zero (30_encoding.md R70, R82). One lemma for each constructor of Instr. -/

namespace Sys2Proof.Laws.FieldsReadBack

/-- The four fields of the word of `i` are those of `i`, and the word has no bit above bit 24. -/
def Statement (i : Instr) : Prop :=
  opcodeField (encode i) = i.opcode.bits ∧ regAField (encode i) = i.regA ∧ regBField (encode i) = i.regB ∧
    imm16Field (encode i) = i.imm16 ∧ (encode i).toNat < 2 ^ 25

theorem of_enc (i : Instr) : Statement i := by
  refine ⟨opcodeField_enc .., regAField_enc .., regBField_enc .., imm16Field_enc .., ?_⟩
  have ho := i.opcode.bits.isLt
  have hi := i.imm16.isLt
  rw [encode, enc_toNat]
  omega

theorem add (regA regB : RegIdx) (imm16 : Imm16) : Statement (.add regA regB imm16) := of_enc _
theorem nand (regA regB : RegIdx) (imm16 : Imm16) : Statement (.nand regA regB imm16) := of_enc _
theorem lw (regA regB : RegIdx) (imm16 : Imm16) : Statement (.lw regA regB imm16) := of_enc _
theorem sw (regA regB : RegIdx) (imm16 : Imm16) : Statement (.sw regA regB imm16) := of_enc _
theorem beq (regA regB : RegIdx) (imm16 : Imm16) : Statement (.beq regA regB imm16) := of_enc _
theorem jalr (regA regB : RegIdx) (imm16 : Imm16) : Statement (.jalr regA regB imm16) := of_enc _
theorem halt (regA regB : RegIdx) (imm16 : Imm16) : Statement (.halt regA regB imm16) := of_enc _
theorem noop (regA regB : RegIdx) (imm16 : Imm16) : Statement (.noop regA regB imm16) := of_enc _

end Sys2Proof.Laws.FieldsReadBack
end

