-- ==== Sys2Proof/Tests/Slice0.lean ====
section
/-! SUPPORT. The model's own tests: the WellFormed smoke tests, words written out from 30_encoding.md R70 and R77 against
the decoder and the encoder, one-step tests whose inputs and results are rows of 95_test_vectors.md (their ids stand
beside them), and for each statement with hypotheses a concrete state that meets them all, clause by clause. -/

namespace Sys2Proof.Tests

open Sys2Proof Sys2Proof.Machine

/-! ### Helpers -/

/-- The next state of an answer; `State.reset` where there is none (tests say beside it that there is one). -/
def result : Host.Outcome State Fault Refusal → State
  | .next t => t
  | .fault _ => State.reset
  | .refused _ => State.reset

/-- The answer is a next state. -/
def isNext : Host.Outcome State Fault Refusal → Bool
  | .next _ => true
  | .fault _ => false
  | .refused _ => false

theorem eq_next {o : Host.Outcome State Fault Refusal} (h : isNext o = true) : o = .next (result o) := by
  cases o <;> simp_all [isNext, result]

/-- Reset, with the word `w` at address 0. -/
def boot (w : Nat) : State := State.reset.withFetchWord 32 w

/-- The same at address `pc`. -/
def bootAt (pc : Word) (w : Nat) : State := { State.reset with pc := pc }.withFetchWord 32 w

/-- The state with `MEM_SIZE = n`. -/
def withMemSize (n : Nat) (s : State) : State := { s with cfg := { s.cfg with memSize := n } }

/-- The state with `DEST_POLICY = MASK3`. -/
def withMask3 (s : State) : State := { s with cfg := { s.cfg with destPolicy := .mask3 } }

/-- The state with `M[i] = v`. -/
def withWord (i : Nat) (v : Word) (s : State) : State := { s with mem := s.mem.writeWord i v }

/-- pc, `instr_count`, `cycle_count`, `status`: the columns "pc after" and "counters / status" of the vectors. -/
def tail (s : State) : Word × Nat × Nat × Status := (s.pc, s.instrCount, s.cycleCount, s.status)

/-! ### WellFormed: each check refuses an ill-formed term -/

theorem test_wf_add_dest : (Instr.add 1 2 7).wf = true ∧ (Instr.add 1 2 8).wf = false := by decide
theorem test_wf_nand_dest : (Instr.nand 1 2 0).wf = true ∧ (Instr.nand 1 2 0xFFFF).wf = false := by decide
theorem test_wf_jalr_imm : (Instr.jalr 7 7 0).wf = true ∧ (Instr.jalr 1 2 1).wf = false := by decide
theorem test_wf_halt_fields : (Instr.halt 0 0 0).wf = true ∧ (Instr.halt 1 0 0).wf = false ∧
    (Instr.halt 0 1 0).wf = false ∧ (Instr.halt 0 0 1).wf = false := by decide
theorem test_wf_noop_fields : (Instr.noop 0 0 0).wf = true ∧ (Instr.noop 7 0 0).wf = false ∧
    (Instr.noop 0 7 0).wf = false ∧ (Instr.noop 0 0 0x8000).wf = false := by decide

/-! ### Decoding: words written out bit by bit, opcode 24:22, regA 21:19, regB 18:16, imm16 15:0 -/

theorem test_decode_add : decode 0b0000000_000_101_011_0000000000000110 = .add 5 3 6 := by decide
theorem test_decode_nand : decode 0b0000000_001_001_010_0000000000000011 = .nand 1 2 3 := by decide
theorem test_decode_lw : decode 0b0000000_010_001_010_1111111111111110 = .lw 1 2 0xFFFE := by decide
theorem test_decode_sw : decode 0b0000000_011_011_100_0000000000000010 = .sw 3 4 2 := by decide
theorem test_decode_beq : decode 0b0000000_100_001_010_1111111111111101 = .beq 1 2 0xFFFD := by decide
theorem test_decode_jalr : decode 0b0000000_101_010_011_0000000000000000 = .jalr 2 3 0 := by decide
theorem test_decode_halt : decode 0b0000000_110_000_000_0000000000000000 = .halt 0 0 0 := by decide
theorem test_decode_noop : decode 0b0000000_111_000_000_0000000000000000 = .noop 0 0 0 := by decide
/-- 95_test_vectors.md 2.1: words with ignored bits set. -/
theorem test_decode_ignored_bits : decode 0xFE000000 = .add 0 0 0 ∧ decode 0x01BFFFFF = .halt 7 7 0xFFFF ∧
    decode 0xFFFFFFFF = .noop 7 7 0xFFFF ∧ decode 0xFF4A1234 = .jalr 1 2 0x1234 := by decide
/-- 95_test_vectors.md 2.1: the columns imm, dest and dest_ok. -/
theorem test_decoder_ports : (decoderPorts 0x0100FFFD).imm = -3 ∧ (decoderPorts 0x0100FFFD).dest = 5 ∧
    (decoderPorts 0x0100FFFD).destOk = false ∧ (decoderPorts 0x00010002).destOk = true ∧
    (decoderPorts 0x01C0ABCD).isNoop = true := by decide
/-- S1 to S4. -/
theorem test_sign_extension : sext32 0x7FFF = 32767 ∧ sext32 0x8000 = -32768 ∧ sext32 0xFFFF = -1 ∧
    sext32 0 = 0 := by decide
/-- 43_control.md R132 and 90_conflicts.md C6; 44_system.md R140, R141. -/
theorem test_encode_words : encode (.jalr 2 3 0) = 0x01530000 ∧ encode (.halt 0 0 0) = 0x01800000 ∧
    encode (.noop 0 0 0) = 0x01C00000 ∧ encode (.beq 1 2 0xFFFD) = 0x010AFFFD := by decide
theorem test_decode_short_bytes : decodeBytes [0, 0, 0] = .error .shortWord := by decide
theorem test_table_word : decodeTableWord 32 0x00DC0002 = some (.sw 3 4 2) := by decide

/-! ### One step of each instruction -/

/-- A1. -/
theorem test_add_wraps : let t := result (step ((boot 0x000A0003).setX 1 0x7FFFFFFF |>.setX 2 1))
    t.x 3 = 0x80000000 ∧ tail t = (1, 1, 2, .running) := by decide
/-- A6. -/
theorem test_add_bad_dest : let t := result (step ((boot 0x000AFFFF).setX 1 5 |>.setX 2 6))
    t.faultInfo = 0xFFFFFFFF ∧ tail t = (0, 0, 0, .errBadDest) := by decide
/-- A8. -/
theorem test_nand : let t := result (step ((boot 0x004A0003).setX 1 0xFFFF0000 |>.setX 2 0x00FFFF00))
    t.x 3 = 0xFF00FFFF ∧ tail t = (1, 1, 2, .running) := by decide
/-- A10: source and destination are one register. -/
theorem test_nand_in_place : (result (step ((boot 0x00490001).setX 1 0xFFFFFFFF))).x 1 = 0 := by decide
/-- M1. -/
theorem test_lw_negative_offset : let t := result (step (withWord 10 0xDEADBEEF ((boot 0x008AFFFE).setX 2 12)))
    t.x 1 = 0xDEADBEEF ∧ tail t = (1, 1, 2, .running) := by decide
/-- M4: the address wraps to a negative one. -/
theorem test_lw_wraps_out : let t := result (step ((boot 0x008A0001).setX 2 0x7FFFFFFF))
    t.faultInfo = 0x80000000 ∧ tail t = (0, 0, 0, .errOutOfBounds) := by decide
/-- M8. -/
theorem test_sw : let t := result (step ((boot 0x00DC0002).setX 3 0x12345678 |>.setX 4 100))
    t.mem.readWord 102 = 0x12345678 ∧ t.mem.readWord 103 = 0 ∧ tail t = (1, 1, 2, .running) := by decide
/-- M11: a SW overwrites its own word. -/
theorem test_sw_overwrites_itself : (result (step ((boot 0x00C80000).setX 1 0xABCD))).mem.readWord 0 = 0xABCD := by decide
/-- B1. -/
theorem test_beq_taken : tail (result (step ((bootAt 10 0x010AFFFD).setX 1 4 |>.setX 2 4))) = (8, 1, 4, .running) := by
  decide
/-- B6: equality is on all 32 bits. -/
theorem test_beq_not_taken : tail (result (step ((boot 0x01080000).setX 1 0x80000000))) = (1, 1, 4, .running) := by decide
/-- S9. -/
theorem test_jalr : let t := result (step ((bootAt 10 0x01530000).setX 3 40))
    t.x 2 = 11 ∧ tail t = (40, 1, 1, .running) := by decide
/-- J1: regA is regB. -/
theorem test_jalr_same_register : let t := result (step ((bootAt 10 0x015B0000).setX 3 40))
    t.x 3 = 11 ∧ t.pc = 40 := by decide
/-- H1. -/
theorem test_halt : tail (result (step (bootAt 4 0x01800000))) = (4, 1, 1, .halted) := by decide
/-- H2, and the events of the step. -/
theorem test_halt_ignored_bits : let t := result (step (bootAt 4 0x01BFFFFF))
    t.status = .halted ∧ t.trace = [.snapshot 4 [] (Vector.replicate 8 0), .halted] := by decide
/-- H4. -/
theorem test_noop_data_word : tail (result (step (bootAt 4 0xFFFFFFFF))) = (5, 1, 1, .running) := by decide
/-- H5. -/
theorem test_noop_ignored_bits : tail (result (step (bootAt 7 0x01C0ABCD))) = (8, 1, 1, .running) := by decide

/-! ### Parameters, fetch, terminal states, reset and launch -/

/-- A7. -/
theorem test_mask3 : let t := result (step (withMask3 ((boot 0x000A0008).setX 1 5 |>.setX 2 6)))
    t.x 0 = 11 ∧ tail t = (1, 1, 2, .running) := by decide
/-- M12 and M13: the highest valid address and the one after it. -/
theorem test_memory_edge :
    (result (step (withMemSize 20 (withWord 19 6 ((boot 0x008A0000).setX 2 19))))).x 1 = 6 ∧
    (result (step (withMemSize 20 ((boot 0x008A0000).setX 2 20)))).faultInfo = 0x14 := by decide
/-- F4. -/
theorem test_cost_parameter : (result (step { (bootAt 10 0x010AFFFD) with
    cfg := { Config.default with cost := { Cost.canonical with beq := 3 } } })).cycleCount = 3 := by decide
/-- F1: the Snapshot is emitted, then the fetch raises. -/
theorem test_fetch_at_memory_size : let t := result (step { State.reset with pc := 65536 })
    t.faultInfo = 65536 ∧ tail t = (65536, 0, 0, .errOutOfBounds) ∧
    t.trace = [.snapshot 65536 [] (Vector.replicate 8 0), .error .outOfBounds 65536] := by decide
/-- F2. -/
theorem test_fetch_at_minus_one : (result (step { State.reset with pc := 0xFFFFFFFF })).faultInfo = 0xFFFFFFFF := by
  decide
/-- F3. -/
theorem test_terminal_no_step : let s := { boot 0x01C00000 with status := .errBadDest }
    isNext (step s) = true ∧ result (step s) = s := by decide
/-- F5: the Snapshot before S6's ADD, with its program of one word loaded. -/
theorem test_snapshot : (result (step { (boot 0x00010002).setX 0 3 |>.setX 1 4 with usedLen := 1 })).trace =
    [.snapshot 0 [0x00010002] #v[3, 4, 0, 0, 0, 0, 0, 0]] := by decide
/-- P1, launched: memory, `used_len` and the entry point. -/
theorem test_launch : let t := result (launch State.reset [0x00C00005, 0x01800000])
    t.mem.readWord 0 = 0x00C00005 ∧ t.mem.readWord 1 = 0x01800000 ∧ t.usedLen = 2 ∧ tail t = (0, 0, 0, .running) := by
  decide
theorem test_oversize_snapshot : isNext (step { State.reset with usedLen := 65537 }) = false := by decide
theorem test_dbg_mdata : dbgMdata (boot 7) 0 = 7 ∧ dbgMdata (boot 7) 65536 = 0 ∧ dbgMdata (boot 7) 0xFFFFFFFF = 0 := by
  decide

/-! ### Witnesses: the hypotheses of the statements can be met, each clause, at the ends of its range -/

theorem witness_IllegalOpcodeNeverEntered : exec (.noop 0 0 0) State.reset = .next (result (execNoop State.reset)) ∧
    step State.reset = .next (result (step State.reset)) ∧ State.reset.status ≠ .errIllegalOpcode :=
  ⟨eq_next (by decide), eq_next (by decide), by decide⟩
theorem witness_DestinationFieldExact : (decoderPorts 0x00000007).destOk = true ∧
    (decoderPorts 0x00000008).destOk = false := by decide
theorem witness_MemReadChecksBounds : inMemory State.reset 0 ∧ inMemory State.reset 65535 ∧
    ¬ inMemory State.reset 65536 ∧ ¬ inMemory State.reset 0xFFFFFFFF ∧ effAddr State.reset 0 0xFFFF = 0xFFFFFFFF ∧
    memRead State.reset 65535 = .ok 0 ∧ memRead State.reset 0xFFFFFFFF = .error ⟨.outOfBounds, 0xFFFFFFFF⟩ := by decide
theorem witness_MemWriteChecksBounds : inMemory State.reset 0 ∧ inMemory State.reset 65535 ∧
    ¬ inMemory State.reset 65536 ∧ ¬ inMemory State.reset 0x80000000 ∧ (Instr.lw 1 2 3).opcode ≠ .sw ∧
    isNext (exec (.lw 1 2 3) State.reset) = true := by decide
theorem witness_CanonicalMemoryIsUnique : Memory.wf [(0, 1), (5, 255)] ∧
    ∀ k, Memory.readByte [(0, 1), (5, 255)] k = Memory.readByte [(0, 1), (5, 255)] k := ⟨by decide, fun _ => rfl⟩
theorem witness_DestinationResolution : (7 : RegIdx).val = (7 : Imm16).toNat % 8 ∧ (7 : Imm16).toNat < 8 ∧
    (0 : RegIdx).val = (8 : Imm16).toNat % 8 ∧ ¬ (8 : Imm16).toNat < 8 ∧
    (7 : RegIdx).val = (0xFFFF : Imm16).toNat % 8 ∧ ¬ (0xFFFF : Imm16).toNat < 8 := by decide
theorem witness_AddWritesSumOrRaises : ((7 : Imm16).toNat < 8 ∧ (7 : RegIdx).val = (7 : Imm16).toNat % 8) ∧
    ((withMask3 State.reset).cfg.destPolicy = .mask3 ∧ (0 : RegIdx).val = (8 : Imm16).toNat % 8) ∧
    (¬ (8 : Imm16).toNat < 8 ∧ State.reset.cfg.destPolicy = .fault) := by decide
theorem witness_NandWritesResultOrRaises : ((0 : Imm16).toNat < 8 ∧ (0 : RegIdx).val = (0 : Imm16).toNat % 8) ∧
    ((withMask3 State.reset).cfg.destPolicy = .mask3 ∧ (7 : RegIdx).val = (0xFFFF : Imm16).toNat % 8) ∧
    (¬ (0xFFFF : Imm16).toNat < 8 ∧ State.reset.cfg.destPolicy = .fault) := by decide
theorem witness_LwLoadsWordOrRaises : let s := State.reset.setX 2 65535
    inMemory s (effAddr s 0 0) ∧ inMemory s (effAddr s 2 0) ∧ ¬ inMemory s (effAddr s 2 1) ∧
    ¬ inMemory s (effAddr s 0 0xFFFF) := by decide
theorem witness_SwStoresWordOrRaises : let s := withMemSize 20 (State.reset.setX 4 19)
    inMemory s (effAddr s 0 0) ∧ inMemory s (effAddr s 4 0) ∧ ¬ inMemory s (effAddr s 4 1) ∧
    ¬ inMemory s (effAddr s 0 0xFFFF) := by decide
theorem witness_BeqBranchesOnEquality : let s := State.reset.setX 1 0x80000000
    s.x 1 = s.x 1 ∧ s.x 0 = s.x 2 ∧ s.x 1 ≠ s.x 0 := by decide
theorem witness_RegisterWritersFrame : writtenReg (.add 1 2 3) = some 3 ∧ writtenReg (.lw 1 0 0xFFFF) = some 1 ∧
    writtenReg (.jalr 2 2 0) = some 2 ∧ exec (.add 1 2 3) State.reset = .next (result (execAdd 1 2 3 State.reset)) ∧
    exec (.lw 1 0 0xFFFF) State.reset = .next (result (execLw 1 0 0xFFFF State.reset)) ∧
    (result (execLw 1 0 0xFFFF State.reset)).status = .errOutOfBounds :=
  ⟨rfl, rfl, rfl, eq_next (by decide), eq_next (by decide), by decide⟩
theorem witness_StoreFrame : storeAddr State.reset (.sw 1 0 5) = some 5 ∧ inMemory State.reset 5 ∧
    storeAddr State.reset (.sw 1 0 0xFFFF) = some 0xFFFFFFFF ∧ ¬ inMemory State.reset 0xFFFFFFFF ∧
    exec (.sw 1 0 5) State.reset = .next (result (execSw 1 0 5 State.reset)) ∧
    exec (.sw 1 0 0xFFFF) State.reset = .next (result (execSw 1 0 0xFFFF State.reset)) :=
  ⟨by decide, by decide, by decide, by decide, eq_next (by decide), eq_next (by decide)⟩
theorem witness_NoWriteFrame : writtenReg (.beq 1 2 3) = none ∧ storeAddr State.reset (.beq 1 2 3) = none ∧
    (Instr.beq 1 2 3).opcode ≠ .halt ∧ writtenReg (.halt 0 0 0) = none ∧ storeAddr State.reset (.halt 0 0 0) = none ∧
    exec (.beq 1 2 3) State.reset = .next (result (execBeq 1 2 3 State.reset)) :=
  ⟨rfl, rfl, by decide, rfl, rfl, eq_next (by decide)⟩
theorem witness_RegisterUse : writtenReg (.add 1 2 3) ≠ some 4 ∧ (3 : RegIdx) ∉ readRegs (.add 1 2 3) ∧
    writtenReg (.add 1 2 3) = some 3 ∧ exec (.add 1 2 3) State.reset = .next (result (execAdd 1 2 3 State.reset)) ∧
    (result (execAdd 1 2 3 State.reset)).status = State.reset.status ∧ State.reset.status.isError = false :=
  ⟨by decide, by decide, rfl, eq_next (by decide), by decide, rfl⟩
theorem witness_StepRunsDecodedInstruction : State.reset.status = .running ∧
    State.reset.usedLen ≤ State.reset.cfg.memSize ∧ inMemory State.reset State.reset.pc ∧
    (let s := { State.reset with pc := 65536 }; s.status = .running ∧ ¬ inMemory s s.pc) := by decide
theorem witness_SnapshotFirst : State.reset.status = .running ∧ step State.reset = .next (result (step State.reset)) ∧
    (let s := { State.reset with status := .halted }; s.terminal ∧ step s = .next s) :=
  ⟨rfl, eq_next (by decide), by decide, eq_next (by decide)⟩
theorem witness_CountersPerStep : (result (step (boot 0x01800000))).status.isError = false ∧
    step (boot 0x01800000) = .next (result (step (boot 0x01800000))) ∧ (boot 0x01800000).status = .running ∧
    (result (step (boot 0x000A0008))).status.isError = true ∧
    step (boot 0x000A0008) = .next (result (step (boot 0x000A0008))) :=
  ⟨by decide, eq_next (by decide), by decide, by decide, eq_next (by decide)⟩
theorem witness_StatusTransitions : (result (step (boot 0x01800000))).status = .halted ∧
    (result (step (boot 0x0088FFFF))).status = .errOutOfBounds ∧
    (result (step (boot 0x000A0008))).status = .errBadDest ∧ (result (step (boot 0x01C00000))).status = .running ∧
    isNext (step (boot 0x01800000)) = true ∧ (result (step (boot 0x01800000))).terminal := by decide
theorem witness_PcAfterCompletedStep : (boot 0x01530000).status = .running ∧
    step (boot 0x01530000) = .next (result (step (boot 0x01530000))) ∧
    (result (step (boot 0x01530000))).status.isError = false ∧ fetch (boot 0x01530000) = .ok 0x01530000 :=
  ⟨by decide, eq_next (by decide), by decide, by decide⟩
theorem witness_ExceptionsArePrecise : (boot 0x00C0FFFF).status = .running ∧
    step (boot 0x00C0FFFF) = .next (result (step (boot 0x00C0FFFF))) ∧
    (result (step (boot 0x00C0FFFF))).status.isError = true :=
  ⟨by decide, eq_next (by decide), by decide⟩
theorem witness_ExceptionTable : (boot 0).status = .running ∧ (boot 0).usedLen ≤ (boot 0).cfg.memSize ∧
    (¬ inMemory { State.reset with pc := 0xFFFFFFFF } 0xFFFFFFFF) ∧
    (fetch (boot 0x0088FFFF) = .ok 0x0088FFFF ∧ accessAddr (boot 0x0088FFFF) (decode 0x0088FFFF) = some 0xFFFFFFFF ∧
      ¬ inMemory (boot 0x0088FFFF) 0xFFFFFFFF) ∧
    (fetch (boot 0x00000008) = .ok 8 ∧ destImm (decode 8) = some 8 ∧ ¬ (8 : Imm16).toNat < 8 ∧
      (boot 8).cfg.destPolicy = .fault) ∧
    (fetch (boot 7) = .ok 7 ∧ accessAddr (boot 7) (decode 7) = none ∧ destImm (decode 7) = some 7 ∧
      (7 : Imm16).toNat < 8) := by decide
theorem witness_TerminalStatesAreAbsorbing : { State.reset with status := .halted }.terminal ∧
    { State.reset with status := .errBadDest }.terminal := by decide
theorem witness_OneRegisterOrOneWord : step (boot 0x00C00005) = .next (result (step (boot 0x00C00005))) ∧
    (boot 0x00C00005).status = .running ∧ fetch (boot 0x00C00005) = .ok 0x00C00005 ∧
    storeAddr (boot 0x00C00005) (decode 0x00C00005) = some 5 ∧ writtenReg (decode 0x00010002) ≠ some 3 ∧
    storeAddr (boot 0x00010002) (decode 0x00010002) = none ∧ (result (step (boot 8))).status.isError = true :=
  ⟨eq_next (by decide), by decide, by decide, by decide, by decide, by decide, by decide⟩
theorem witness_UsedLenAndParametersUntouched : step State.reset = .next (result (step State.reset)) ∧
    exec (.sw 1 0 5) State.reset = .next (result (execSw 1 0 5 State.reset)) :=
  ⟨eq_next (by decide), eq_next (by decide)⟩
theorem witness_HostRegistersAreNotRead :
    let s' := { boot 0x000A0008 with instrCount := 9, cycleCount := 3, faultInfo := 1, usedLen := 65536, trace := [.halted] }
    s'.cfg = (boot 0x000A0008).cfg ∧ s'.regs = (boot 0x000A0008).regs ∧ s'.pc = (boot 0x000A0008).pc ∧
    s'.mem = (boot 0x000A0008).mem ∧ s'.status = (boot 0x000A0008).status ∧ s'.usedLen ≤ s'.cfg.memSize ∧
    step (boot 0x000A0008) = .next (result (step (boot 0x000A0008))) ∧
    (result (step (boot 0x000A0008))).status.isError = true :=
  ⟨rfl, rfl, rfl, rfl, rfl, by decide, eq_next (by decide), by decide⟩
theorem witness_StoreToNextInstructionIsFetched : let s := boot 0x00C80001
    s.status = .running ∧ s.usedLen ≤ s.cfg.memSize ∧ fetch s = .ok 0x00C80001 ∧ decode 0x00C80001 = .sw 1 0 1 ∧
    effAddr s 0 1 = s.pc + 1 ∧ inMemory s (s.pc + 1) := by decide
theorem witness_MemoryChangesOnlyByStore : let s := (boot 0x00C80001).setX 1 9
    step s = .next (result (step s)) ∧ (result (step s)).mem.readWord 1 ≠ s.mem.readWord 1 :=
  ⟨eq_next (by decide), by decide⟩
theorem witness_BranchToItselfNeverEnds : let s := bootAt 3 0x0100FFFF
    s.status = .running ∧ s.usedLen ≤ s.cfg.memSize ∧ fetch s = .ok 0x0100FFFF ∧ decode 0x0100FFFF = .beq 0 0 0xFFFF := by
  decide
theorem witness_TargetOutsideMemoryFaultsAtNextFetch :
    (let s := bootAt 3 0x0100FFF6; s.status = .running ∧ s.usedLen ≤ s.cfg.memSize ∧ fetch s = .ok 0x0100FFF6 ∧
      (decode 0x0100FFF6).opcode = .beq ∧ ¬ inMemory s (nextPc s (decode 0x0100FFF6))) ∧
    (let s := (boot 0x01530000).setX 3 65536; fetch s = .ok 0x01530000 ∧ (decode 0x01530000).opcode = .jalr ∧
      ¬ inMemory s (nextPc s (decode 0x01530000))) := by decide
theorem witness_StepKeepsLegalStates : (boot 0x00C00005).legal ∧
    step (boot 0x00C00005) = .next (result (step (boot 0x00C00005))) := ⟨by decide, eq_next (by decide)⟩
theorem witness_LegalStatesAlwaysStep : (withMemSize 1 State.reset).legal ∧ (withMemSize (2 ^ 31) State.reset).legal := by
  decide
theorem witness_StepKeepsTraceShape : (boot 0x01800000).traceShape ∧
    step (boot 0x01800000) = .next (result (step (boot 0x01800000))) ∧
    { boot 0 with status := .halted, instrCount := 1, trace := [.snapshot 0 [] (Vector.replicate 8 0), .halted] }.traceShape :=
  ⟨⟨[], by decide, by decide, by decide⟩, eq_next (by decide),
    [.snapshot 0 [] (Vector.replicate 8 0)], by decide, by decide, by decide⟩
theorem witness_StepKeepsTerminalStatesExplained : (boot 8).explained ∧ step (boot 8) = .next (result (step (boot 8))) ∧
    { boot 0x01800000 with status := .halted }.explained :=
  ⟨trivial, eq_next (by decide), 0x01800000, by decide, by decide⟩
theorem witness_StepStopsOnlyOnOversizeSnapshot : let s := { State.reset with usedLen := 65537 }
    s.status = .running ∧ s.cfg.memSize < s.usedLen := by decide
theorem witness_ResetLeavesTheStatedValues : assertReset (boot 8) = assertReset (boot 8) ∧ State.reset = State.reset :=
  ⟨rfl, rfl⟩
theorem witness_LaunchLeavesResetState : State.reset.cfg.legal ∧
    [0x00C00005, (0x01800000 : Word)].length ≤ State.reset.cfg.memSize ∧
    (withMemSize 1 State.reset).cfg.legal ∧ [(7 : Word)].length ≤ (withMemSize 1 State.reset).cfg.memSize := by decide
theorem witness_OversizeLaunchIsRefused : (withMemSize 1 State.reset).cfg.memSize < [7, (8 : Word)].length ∧
    State.reset.cfg.memSize < (65537 : Word).toNat ∧ (65536 : Word).toNat ≤ State.reset.cfg.memSize := by decide
theorem witness_LoadEdgeWritesOrIgnores : inMemory State.reset 65535 ∧ ¬ inMemory State.reset 65536 := by decide
theorem witness_LaunchedStatesMeetTheInvariants : State.reset.cfg.legal ∧
    launch State.reset [0x01800000] = .next (result (launch State.reset [0x01800000])) := ⟨by decide, eq_next (by decide)⟩
theorem witness_HostPortsShowTheState : inMemory State.reset 0 ∧ inMemory State.reset 65535 ∧
    ¬ inMemory State.reset 65536 := by decide
theorem witness_ReleaseStartsARun : State.reset.cfg.legal ∧ (65536 : Word).toNat ≤ State.reset.cfg.memSize ∧
    [((0 : Word), (1 : Word)), (0, 2)] = [((0 : Word), (1 : Word))] ++ ((0 : Word), (2 : Word)) :: [] ∧
    inMemory State.reset 0 ∧ inMemory State.reset 65535 ∧ ∀ e ∈ [((0 : Word), (1 : Word)), (0, 2)], e.1.toInt ≠ 1 :=
  ⟨by decide, by decide, rfl, by decide, by decide, by simp⟩

end Sys2Proof.Tests
end

section
/-! Legality reads the parameters, memory, `used_len` and `status`. The Snapshot touches none of the four; an exception
writes `status` alone; and the one writer of memory, SW, has checked that its word is one of the `MEM_SIZE` words. -/

namespace Sys2Proof.Machine

/-- A word write inside a memory of `n` words lists only cells of those words. -/
theorem Memory.writeWord_listed_lt {m : Memory} {n i : Nat} (v : Word) (hm : ∀ c ∈ m, c.1 < 4 * n) (hi : i < n) :
    ∀ c ∈ m.writeWord i v, c.1 < 4 * n := by
  intro c hc
  rcases Memory.mem_writeWord hc with hword | hold
  · omega
  · exact hm c hold

theorem State.legal.status_ne {s : State} (hs : s.legal) : s.status ≠ .errIllegalOpcode := by
  obtain ⟨-, -, -, -, hstatus⟩ := hs
  exact hstatus

/-- What shares the parameters, memory and `used_len` of a legal state is legal, unless its own status forbids it. -/
theorem State.legal.of_frame {s t : State} (hs : s.legal) (hcfg : t.cfg = s.cfg) (hmem : t.mem = s.mem)
    (hused : t.usedLen = s.usedLen) (hstatus : t.status ≠ .errIllegalOpcode) : t.legal := by
  obtain ⟨hparams, hwf, hlisted, hfits, -⟩ := hs
  unfold State.legal
  rw [hcfg, hmem, hused]
  exact ⟨hparams, hwf, hlisted, hfits, hstatus⟩

/-- Storing a word inside the memory keeps a state legal (20_memory.md R53). -/
theorem State.legal.after_writeWord {s : State} (hs : s.legal) {i : Nat} (hi : i < s.cfg.memSize) (v : Word) :
    State.legal { s with mem := s.mem.writeWord i v } := by
  obtain ⟨hparams, hwf, hlisted, hfits, hstatus⟩ := hs
  exact ⟨hparams, Memory.writeWord_wf hwf i v, Memory.writeWord_listed_lt v hlisted hi, hfits, hstatus⟩

theorem State.legal.after_emitSnapshot {s : State} (hs : s.legal) : (emitSnapshot s).legal :=
  hs.of_frame rfl rfl rfl hs.status_ne

/-- An exception other than IllegalOpcode, which nothing raises (30_encoding.md R76), leads to a legal state. -/
theorem State.legal.after_raise {s : State} (hs : s.legal) {r : Raised} (hr : r.exc ≠ .illegalOpcode) :
    (raise s r).legal := by
  refine hs.of_frame rfl rfl rfl ?_
  rw [raise_status]
  cases he : r.exc with
  | outOfBounds => decide
  | badDestination => decide
  | illegalOpcode => exact absurd he hr

theorem ownCheck_ne_illegalOpcode {s : State} {i : Instr} {r : Raised} (h : ownCheck s i = some r) :
    r.exc ≠ .illegalOpcode := by
  obtain ⟨he, -⟩ | ⟨he, -⟩ := ownCheck_exc h <;> rw [he] <;> decide

/-- A LW or SW that passes its check accesses one of the `MEM_SIZE` words. -/
theorem wordIndex_lt_of_ownCheck_none {s : State} {i : Instr} {ea : Word} (ha : accessAddr s i = some ea)
    (hc : ownCheck s i = none) : wordIndex ea < s.cfg.memSize := by
  rw [ownCheck_of_access ha] at hc
  by_cases hin : inMemory s ea
  · exact State.wordIndex_lt (addrOk_of_inMemory hin)
  · simp [hin] at hc

/-- What an instruction that passes its check writes keeps a state legal: only SW writes memory. -/
theorem State.legal.after_written {s : State} (hs : s.legal) {i : Instr} (hc : ownCheck s i = none) :
    (written s i).legal := by
  cases hst : storeAddr s i with
  | none =>
    refine hs.of_frame (written_cfg s i) (written_mem s hst) (written_usedLen s i) ?_
    rw [written_status]
    split
    · decide
    · exact hs.status_ne
  | some ea =>
    cases i with
    | sw a b imm16 => exact hs.after_writeWord (wordIndex_lt_of_ownCheck_none rfl hc) (s.x a)
    | _ => cases hst

/-- Every instruction keeps the legal states. -/
theorem exec_keeps_legal {i : Instr} {s t : State} (hs : s.legal) (h : exec i s = .next t) : t.legal := by
  obtain ⟨hc, rfl⟩ | ⟨r, hc, rfl⟩ := exec_cases h
  · have hw := hs.after_written hc
    exact hw.of_frame rfl rfl rfl hw.status_ne
  · exact hs.after_raise (ownCheck_ne_illegalOpcode hc)

/-- Settles O45: in a terminal state nothing changes; in RUNNING the Snapshot keeps the state legal, and then the fetch
raises OutOfBounds or the fetched instruction is executed, each of which does too. -/
theorem stepKeepsLegalStates : Obligations.StepKeepsLegalStates := by
  intro s t hs h
  obtain ⟨-, rfl⟩ | ⟨-, -, ⟨-, rfl⟩ | ⟨w, -, hexec⟩⟩ := step_cases h
  · exact hs
  · exact hs.after_emitSnapshot.after_raise (by simp)
  · exact exec_keeps_legal hs.after_emitSnapshot hexec

end Sys2Proof.Machine
end

section
/-! A canonical memory is determined by its bytes: it lists exactly the cells that read as something else than an
unlisted one does, each once, in rising order. -/

namespace Sys2Proof.Machine

theorem Memory.readByte_of_not_listed {m : Memory} {k : Nat} (h : ∀ c ∈ m, c.1 ≠ k) :
    m.readByte k = Memory.unlisted := by
  induction m with
  | nil => rfl
  | cons d m ih =>
    rw [Memory.readByte_cons, if_neg (h d List.mem_cons_self)]
    exact ih fun c hc => h c (List.mem_cons_of_mem _ hc)

/-- Rising addresses: a listed cell is not shadowed by one listed before it. -/
theorem Memory.readByte_of_mem {m : Memory} (hm : m.Pairwise (fun c d => c.1 < d.1)) {c : Host.Cell} (hc : c ∈ m) :
    m.readByte c.1 = c.2 := by
  induction m with
  | nil => cases hc
  | cons d m ih =>
    obtain ⟨hd, hm'⟩ := List.pairwise_cons.1 hm
    rw [Memory.readByte_cons]
    rcases List.mem_cons.1 hc with rfl | hc
    · exact if_pos rfl
    · rw [if_neg (hd c hc).ne, ih hm' hc]

/-- The cells a canonical memory lists, said by what it reads. -/
theorem Memory.mem_iff_readByte {m : Memory} (hm : m.wf) (c : Host.Cell) :
    c ∈ m ↔ c.2 ≠ Memory.unlisted ∧ m.readByte c.1 = c.2 := by
  obtain ⟨hsorted, hlisted⟩ := hm
  refine ⟨fun hc => ⟨hlisted c hc, Memory.readByte_of_mem hsorted hc⟩, fun ⟨hne, hread⟩ => ?_⟩
  by_contra hc
  refine hne (hread.symm.trans (Memory.readByte_of_not_listed fun d hd hdc => hc ?_))
  have hval : d.2 = c.2 := by rw [← Memory.readByte_of_mem hsorted hd, hdc, hread]
  rwa [← Prod.ext hdc hval]

/-- Settles O14: both lists are sorted and, by `Memory.mem_iff_readByte`, have the same members. -/
theorem canonicalMemoryIsUnique : Obligations.CanonicalMemoryIsUnique := by
  intro m m' hm hm' h
  have hmem : ∀ c : Host.Cell, c ∈ m ↔ c ∈ m' := fun c => by
    rw [Memory.mem_iff_readByte hm, Memory.mem_iff_readByte hm', h]
  have : Std.Irrefl fun c d : Host.Cell => c.1 < d.1 := ⟨fun c => lt_irrefl c.1⟩
  have : Std.Antisymm fun c d : Host.Cell => c.1 < d.1 := ⟨fun _ _ hcd hdc => absurd hcd hdc.asymm⟩
  exact hm.1.eq_of_mem_iff hm'.1 hmem

end Sys2Proof.Machine
end

section
/-! What an instruction leaves unchanged (10_state.md R23, R24). First each fact about any instruction, from the two
outcomes of `exec`; then the frames of the three kinds of instruction, and of a step. -/

namespace Sys2Proof.Machine

/-! ### The register write port -/

theorem State.setX_sameRegsBut (s : State) (i : RegIdx) (v : Word) : sameRegsBut i s (s.setX i v) :=
  fun _ hj => State.x_setX_of_ne s v hj

theorem State.setX_quiet (s : State) (i : RegIdx) (v : Word) : quiet s (s.setX i v) := ⟨rfl, rfl, rfl, rfl, rfl⟩

theorem State.setX_uncounted (s : State) (i : RegIdx) (v : Word) : uncounted s (s.setX i v) := ⟨rfl, rfl⟩

/-- Settles O11, by the laws of the write port. -/
theorem everyRegisterReadsBack : Obligations.EveryRegisterReadsBack := fun s i v =>
  ⟨s.x_setX_self i v, s.setX_sameRegsBut i v, s.setX_quiet i v, s.setX_uncounted i v, rfl, rfl⟩

/-! ### The tables of 10_state.md R24 -/

theorem storeAddr_eq_none_of_writtenReg {i : Instr} {k : RegIdx} (s : State) (h : writtenReg i = some k) :
    storeAddr s i = none := by
  cases i with
  | sw a b imm16 => cases h
  | _ => rfl

theorem opcode_ne_halt_of_writtenReg {i : Instr} {k : RegIdx} (h : writtenReg i = some k) : i.opcode ≠ .halt := by
  cases i with
  | halt a b imm16 => cases h
  | _ => simp [Instr.opcode]

theorem storeAddr_eq_some_iff {i : Instr} {s : State} {ea : Word} :
    storeAddr s i = some ea ↔ ∃ a b imm16, i = .sw a b imm16 ∧ effAddr s b imm16 = ea := by
  cases i <;> simp [storeAddr]

/-- No instruction writes both a register and memory. -/
theorem writtenReg_or_storeAddr_eq_none (s : State) (i : Instr) : writtenReg i = none ∨ storeAddr s i = none := by
  cases hw : writtenReg i with
  | none => exact .inl rfl
  | some k => exact .inr (storeAddr_eq_none_of_writtenReg s hw)

theorem ownCheck_eq_none_of_writes_nothing {i : Instr} {s : State} (hw : writtenReg i = none)
    (hs : storeAddr s i = none) : ownCheck s i = none := by
  cases i with
  | beq a b imm16 => rfl
  | halt a b imm16 => rfl
  | noop a b imm16 => rfl
  | sw a b imm16 => cases hs
  | _ => cases hw

/-! ### Any instruction -/

theorem exec_cfg_usedLen {i : Instr} {s t : State} (h : exec i s = .next t) :
    t.cfg = s.cfg ∧ t.usedLen = s.usedLen := by
  obtain ⟨-, rfl⟩ | ⟨r, -, rfl⟩ := exec_cases h
  · simp
  · simp

theorem exec_x_of_ne {i : Instr} {s t : State} (h : exec i s = .next t) {k : RegIdx} (hk : writtenReg i ≠ some k) :
    t.x k = s.x k := by
  obtain ⟨-, rfl⟩ | ⟨r, -, rfl⟩ := exec_cases h
  · exact written_x_of_ne s hk
  · rfl

theorem exec_mem {i : Instr} {s t : State} (h : exec i s = .next t) (hs : storeAddr s i = none) : t.mem = s.mem := by
  obtain ⟨-, rfl⟩ | ⟨r, -, rfl⟩ := exec_cases h
  · exact written_mem s hs
  · rfl

theorem sameBytes_of_mem {s t : State} (h : t.mem = s.mem) : sameBytes s t := fun k => by rw [h]

theorem sameBytesBut_writeWord (s : State) (w : Nat) (v : Word) :
    sameBytesBut w s { s with mem := s.mem.writeWord w v } :=
  fun _ hk => Memory.readByte_writeWord_of_ne s.mem v (by omega)

/-- A store changes no byte outside the word it addresses (20_memory.md R53). -/
theorem exec_sameBytesBut {i : Instr} {s t : State} {ea : Word} (hs : storeAddr s i = some ea)
    (h : exec i s = .next t) : sameBytesBut ea.toInt.toNat s t := by
  obtain ⟨-, rfl⟩ | ⟨r, -, rfl⟩ := exec_cases h
  · obtain ⟨a, b, imm16, rfl, rfl⟩ := storeAddr_eq_some_iff.1 hs
    exact sameBytesBut_writeWord s _ (s.x a)
  · exact fun k _ => rfl

/-- An instruction that leads to an error state from another one has raised. -/
theorem exec_isError {i : Instr} {s t : State} (hs : s.status.isError = false) (h : exec i s = .next t)
    (ht : t.status.isError = true) : ∃ r, t = raise s r := by
  obtain ⟨-, rfl⟩ | ⟨r, -, rfl⟩ := exec_cases h
  · rw [complete_status, written_status] at ht
    split at ht
    · cases ht
    · rw [hs] at ht
      cases ht
  · exact ⟨r, rfl⟩

/-- An instruction that leads to no error state has completed. -/
theorem exec_completed {i : Instr} {s t : State} (h : exec i s = .next t) (ht : t.status.isError = false) :
    t = complete i.opcode (nextPc s i) (written s i) := by
  obtain ⟨-, rfl⟩ | ⟨r, hr, rfl⟩ := exec_cases h
  · rfl
  · rw [raise_status, ownCheck_isError hr] at ht
    cases ht

theorem completed_quiet (s : State) {i : Instr} (hi : i.opcode ≠ .halt) :
    quiet s (complete i.opcode (nextPc s i) (written s i)) := by
  simp [quiet, written_status, written_trace, hi]

/-- Only HALT and an exception change `status`, `fault_info` or the trace; an exception discards every other write
(60_exceptions.md R152). -/
theorem exec_quiet_or_raised {i : Instr} {s t : State} (hi : i.opcode ≠ .halt) (h : exec i s = .next t) :
    quiet s t ∨ (t.status.isError = true ∧ sameRegs s t ∧ t.pc = s.pc ∧ uncounted s t) := by
  obtain ⟨-, rfl⟩ | ⟨r, hr, rfl⟩ := exec_cases h
  · exact .inl (completed_quiet s hi)
  · exact .inr ⟨ownCheck_isError hr, fun _ => rfl, rfl, rfl, rfl⟩

/-! ### The frames of the three kinds of instruction -/

/-- Settles O26: an instruction that writes a register stores nothing and is not HALT. -/
theorem registerWritersFrame : Obligations.RegisterWritersFrame := by
  intro i k s t hk h
  obtain ⟨hcfg, hused⟩ := exec_cfg_usedLen h
  have hregs : sameRegsBut k s t := fun j hj => exec_x_of_ne h (by rw [hk]; exact fun e => hj (Option.some.inj e).symm)
  have hmem := exec_mem h (storeAddr_eq_none_of_writtenReg s hk)
  exact ⟨hregs, sameBytes_of_mem hmem, hcfg, hused, exec_quiet_or_raised (opcode_ne_halt_of_writtenReg hk) h⟩

/-- Settles O27: the storing instruction is SW, which writes no register, and outside the memory its check fails. -/
theorem storeFrame : Obligations.StoreFrame := by
  intro i ea s t hst h
  obtain ⟨hcfg, hused⟩ := exec_cfg_usedLen h
  have hbut := exec_sameBytesBut hst h
  obtain ⟨a, b, imm16, rfl, rfl⟩ := storeAddr_eq_some_iff.1 hst
  refine ⟨fun k => exec_x_of_ne h (by simp [writtenReg]), hbut, fun hout => ?_, hcfg, hused, ?_⟩
  · have hcheck : ownCheck s (.sw a b imm16) = some ⟨.outOfBounds, effAddr s b imm16⟩ := by
      rw [ownCheck_of_access rfl, if_neg hout]
    obtain rfl := Host.Outcome.next.inj ((exec_of_check_some hcheck).symm.trans h)
    exact fun k => rfl
  · obtain hquiet | ⟨herr, -, hpc, hcount⟩ := exec_quiet_or_raised (by simp [Instr.opcode]) h
    · exact .inl hquiet
    · exact .inr ⟨herr, hpc, hcount⟩

/-- Settles O28: an instruction that writes neither a register nor memory has no check, so it completes. -/
theorem noWriteFrame : Obligations.NoWriteFrame := by
  intro i s t hw hst h
  have hmem := exec_mem h hst
  obtain ⟨hcfg, hused⟩ := exec_cfg_usedLen h
  have hregs : sameRegs s t := fun k => exec_x_of_ne h (by simp [hw])
  obtain rfl := Host.Outcome.next.inj
    ((exec_of_check_none (ownCheck_eq_none_of_writes_nothing hw hst)).symm.trans h)
  refine ⟨hregs, sameBytes_of_mem hmem, hcfg, hused, by simp, completed_quiet s⟩

/-! ### The frame of a step -/

/-- Settles O34: a step that does not raise has completed the instruction, which leaves `nextPc`. -/
theorem pcAfterCompletedStep : Obligations.PcAfterCompletedStep := by
  intro s t w hrun h ht hw
  obtain ⟨hne, -⟩ | ⟨-, -, ⟨herr, -⟩ | ⟨w', hw', hexec⟩⟩ := step_cases h
  · exact absurd hrun hne
  · rw [hw] at herr
    cases herr
  · obtain rfl : w = w' := Except.ok.inj (hw.symm.trans hw')
    have hpc : t.pc = nextPc (emitSnapshot s) (decode w) := by rw [exec_completed hexec ht, complete_pc]
    rw [hpc]
    cases decode w <;> rfl

/-- A step from RUNNING with a word fetched executes it after the Snapshot. -/
theorem exec_of_step {s t : State} {w : Word} (hrun : s.status = .running) (hw : fetch s = .ok w)
    (h : step s = .next t) : exec (decode w) (emitSnapshot s) = .next t := by
  obtain ⟨hne, -⟩ | ⟨-, -, ⟨herr, -⟩ | ⟨w', hw', hexec⟩⟩ := step_cases h
  · exact absurd hrun hne
  · rw [hw] at herr
    cases herr
  · rwa [Except.ok.inj (hw.symm.trans hw')]

/-- A step that stays in a terminal state or raises writes no register and no byte of memory. -/
theorem step_same_of_terminal_or_isError {s t : State} (h : step s = .next t)
    (hstop : s.terminal ∨ t.status.isError = true) : sameRegs s t ∧ sameBytes s t := by
  obtain ⟨-, rfl⟩ | ⟨hrun, -, ⟨-, rfl⟩ | ⟨w, -, hexec⟩⟩ := step_cases h
  · exact ⟨fun _ => rfl, fun _ => rfl⟩
  · exact ⟨fun _ => rfl, fun _ => rfl⟩
  · have ht := hstop.resolve_left fun hne => hne hrun
    obtain ⟨r, rfl⟩ := exec_isError (by rw [emitSnapshot_status, hrun]; rfl) hexec ht
    exact ⟨fun _ => rfl, fun _ => rfl⟩

/-- Settles O38: the Snapshot writes no register and no memory, so the frame of the step is that of the instruction. -/
theorem oneRegisterOrOneWord : Obligations.OneRegisterOrOneWord := by
  intro s t h
  refine ⟨step_same_of_terminal_or_isError h, fun w hrun hw => ?_⟩
  have hexec := exec_of_step hrun hw h
  exact ⟨fun k hk => exec_x_of_ne hexec hk, fun hst => sameBytes_of_mem (exec_mem (s := emitSnapshot s) hexec hst),
    fun ea hst => exec_sameBytesBut (s := emitSnapshot s) hst hexec, writtenReg_or_storeAddr_eq_none s (decode w)⟩

/-- What an instruction writes does not depend on `used_len`. -/
theorem written_setUsedLen (s : State) (i : Instr) (n : Nat) :
    written { s with usedLen := n } i = { written s i with usedLen := n } := by cases i <;> rfl

theorem nextPc_congr {s t : State} (hr : t.regs = s.regs) (hp : t.pc = s.pc) (i : Instr) : nextPc t i = nextPc s i := by
  cases i <;> simp [nextPc, State.x_congr hr, hp]

/-- Executing an instruction commutes with setting `used_len` (10_state.md R29). -/
theorem exec_setUsedLen {i : Instr} {s t : State} (n : Nat) (h : exec i s = .next t) :
    exec i { s with usedLen := n } = .next { t with usedLen := n } := by
  have hcheck : ownCheck { s with usedLen := n } i = ownCheck s i := ownCheck_congr rfl rfl i
  obtain ⟨hc, rfl⟩ | ⟨r, hc, rfl⟩ := exec_cases h
  · rw [exec_of_check_none (hcheck.trans hc), written_setUsedLen, nextPc_congr (s := s) rfl rfl]
    rfl
  · rw [exec_of_check_some (hcheck.trans hc)]
    rfl

/-- Settles O39: neither the Snapshot nor an exception nor an instruction writes the parameters or `used_len`. -/
theorem usedLenAndParametersUntouched : Obligations.UsedLenAndParametersUntouched := by
  refine ⟨fun s t h => ?_, fun i s t n h => exec_setUsedLen n h⟩
  obtain ⟨-, rfl⟩ | ⟨-, -, ⟨-, rfl⟩ | ⟨w, -, hexec⟩⟩ := step_cases h
  · exact ⟨rfl, rfl⟩
  · exact ⟨rfl, rfl⟩
  · exact exec_cfg_usedLen (s := emitSnapshot s) hexec

end Sys2Proof.Machine
end

section
/-! Noninterference of the registers an instruction does not read (10_state.md R24): changing such a register before the
instruction either makes no difference after it, or makes that same change. -/

namespace Sys2Proof.Machine

/-- Of two register writes the later one counts, and writes to different registers commute. -/
theorem State.setX_setX (s : State) (k d : RegIdx) (v w : Word) :
    (s.setX k v).setX d w = if d = k then s.setX d w else (s.setX d w).setX k v := by
  split
  · next h => simp [State.setX, h]
  · next h =>
    have hne : k.val ≠ d.val := fun e => h (Fin.ext e.symm)
    simp [State.setX, Vector.set_comm _ _ hne]

theorem effAddr_setX_of_ne (s : State) {k b : RegIdx} (v : Word) (imm16 : Imm16) (h : b ≠ k) :
    effAddr (s.setX k v) b imm16 = effAddr s b imm16 := by
  rw [effAddr, State.x_setX_of_ne s v h, effAddr]

theorem ownCheck_setX_of_not_read (s : State) {i : Instr} {k : RegIdx} (v : Word) (hk : k ∉ readRegs i) :
    ownCheck (s.setX k v) i = ownCheck s i := by
  refine ownCheck_congr_addr rfl ?_
  cases i with
  | lw a b imm16 =>
    have hb : b ≠ k := fun e => hk (by simp [readRegs, e])
    simp [accessAddr, effAddr_setX_of_ne s v imm16 hb]
  | sw a b imm16 =>
    have hb : b ≠ k := fun e => hk (by simp [readRegs, e])
    simp [accessAddr, effAddr_setX_of_ne s v imm16 hb]
  | _ => rfl

theorem nextPc_setX_of_not_read (s : State) {i : Instr} {k : RegIdx} (v : Word) (hk : k ∉ readRegs i) :
    nextPc (s.setX k v) i = nextPc s i := by
  cases i with
  | beq a b imm16 =>
    obtain ⟨ha, hb⟩ : a ≠ k ∧ b ≠ k := by simpa [readRegs, eq_comm] using hk
    simp [nextPc, State.x_setX_of_ne s v ha, State.x_setX_of_ne s v hb]
  | jalr a b imm16 =>
    have hb : b ≠ k := fun e => hk (by simp [readRegs, e])
    exact State.x_setX_of_ne s v hb
  | _ => rfl

/-- What an instruction writes does not depend on a register it does not read. -/
theorem written_setX_of_not_read (s : State) {i : Instr} {k : RegIdx} (v : Word) (hk : k ∉ readRegs i) :
    written (s.setX k v) i = if writtenReg i = some k then written s i else (written s i).setX k v := by
  have hread : ∀ {j : RegIdx}, j ∈ readRegs i → (s.setX k v).x j = s.x j := fun hj =>
    State.x_setX_of_ne s v fun e => hk (e ▸ hj)
  cases i with
  | add a b imm16 =>
    simp only [written, writtenReg, hread (j := a) (by simp [readRegs]), hread (j := b) (by simp [readRegs]),
      Option.some.injEq]
    exact s.setX_setX k (destOf imm16) v _
  | nand a b imm16 =>
    simp only [written, writtenReg, hread (j := a) (by simp [readRegs]), hread (j := b) (by simp [readRegs]),
      Option.some.injEq]
    exact s.setX_setX k (destOf imm16) v _
  | lw a b imm16 =>
    simp only [written, writtenReg, effAddr, hread (j := b) (by simp [readRegs]), State.setX_mem, Option.some.injEq]
    exact s.setX_setX k a v _
  | sw a b imm16 =>
    simp only [written, writtenReg, effAddr, hread (j := a) (by simp [readRegs]), hread (j := b) (by simp [readRegs])]
    rfl
  | jalr a b imm16 =>
    simp only [written, writtenReg, Option.some.injEq]
    exact s.setX_setX k a v s.pc1
  | beq a b imm16 => rfl
  | halt a b imm16 => rfl
  | noop a b imm16 => rfl

/-- Changing a register that an instruction does not read: if the instruction completes and writes it, no difference is
left; otherwise the change is all the difference. -/
theorem exec_setX_of_not_read {i : Instr} {s t : State} {k : RegIdx} (v : Word) (hk : k ∉ readRegs i)
    (h : exec i s = .next t) : exec i (s.setX k v) =
      .next (if ownCheck s i = none ∧ writtenReg i = some k then t else t.setX k v) := by
  have hcheck := ownCheck_setX_of_not_read s v hk
  obtain ⟨hc, rfl⟩ | ⟨r, hc, rfl⟩ := exec_cases h
  · rw [exec_of_check_none (hcheck.trans hc), nextPc_setX_of_not_read s v hk, written_setX_of_not_read s v hk]
    by_cases hw : writtenReg i = some k
    · simp [hc, hw]
    · simp only [hc, hw, and_false, if_false]
      rfl
  · rw [exec_of_check_some (hcheck.trans hc)]
    simp only [hc, reduceCtorEq, false_and, if_false]
    rfl

/-- Settles O29: by `exec_setX_of_not_read` the changed run ends in the same state, or in the same state with the same
change; in the latter case the instruction does not write the register, or it raised. -/
theorem registerUse : Obligations.RegisterUse := by
  intro i s t k h
  refine ⟨fun hk => exec_x_of_ne h hk, fun hk v => ⟨_, exec_setX_of_not_read v hk h, ?_⟩⟩
  split
  · exact ⟨fun _ _ => rfl, rfl, rfl, ⟨rfl, rfl, rfl, rfl, rfl⟩, ⟨rfl, rfl⟩, fun _ _ _ => rfl⟩
  · next hdiff =>
    refine ⟨t.setX_sameRegsBut k v, rfl, rfl, t.setX_quiet k v, t.setX_uncounted k v, fun hw hst hs => ?_⟩
    obtain ⟨hc, -⟩ | ⟨r, hc, rfl⟩ := exec_cases h
    · exact absurd ⟨hc, hw⟩ hdiff
    · rw [← hst, raise_status, ownCheck_isError hc] at hs
      cases hs

end Sys2Proof.Machine
end

section
/-! The state after reset and after a launch: the values of 10_state.md R37, and the three invariants of a run. -/

namespace Sys2Proof.Machine

/-! ### The invariants at reset -/

/-- Asserting reset leads to a legal state, whatever the state before: memory is empty and the status RUNNING. -/
theorem assertReset_legal {s : State} (hs : s.cfg.legal) : (assertReset s).legal :=
  ⟨hs, Memory.wf_nil, by simp, Nat.zero_le _, by simp⟩

/-- An empty trace has the shape of a run's that has completed nothing. -/
theorem State.traceShape_of_empty {s : State} (hrun : s.status = .running) (htrace : s.trace = [])
    (hcount : s.instrCount = 0) : s.traceShape := by
  refine ⟨[], ?_, by simp, ?_⟩
  · rw [htrace, hrun]; rfl
  · rw [snapshotCount, hrun, hcount]; rfl

theorem State.explained_of_running {s : State} (hrun : s.status = .running) : s.explained := by
  rw [State.explained, hrun]; trivial

/-- Settles O47: the default parameters are legal, and State.reset is what asserting reset leads to under them. -/
theorem resetIsLegal : Obligations.ResetIsLegal :=
  assertReset_legal (s := State.reset) (by decide)

/-- Settles O50: State.reset is RUNNING with an empty trace. -/
theorem resetMeetsTraceInvariants : Obligations.ResetMeetsTraceInvariants :=
  ⟨State.traceShape_of_empty rfl rfl rfl, State.explained_of_running rfl⟩

/-- Settles O52: State.reset is asserting reset under the default parameters, so the values need one look. -/
theorem resetLeavesTheStatedValues : Obligations.ResetLeavesTheStatedValues := by
  intro s r hr
  obtain ⟨s', rfl⟩ : ∃ s', r = assertReset s' := hr.elim (fun h => ⟨State.reset, h⟩) (fun h => ⟨s, h⟩)
  exact ⟨assertReset_x s', rfl, Memory.readWord_nil, rfl, rfl, rfl, rfl, rfl, rfl, rfl, rfl, rfl, rfl⟩

/-! ### Loading -/

theorem loadEdge_cfg (s : State) (a v : Word) : (loadEdge s a v).cfg = s.cfg := by rw [loadEdge_eq]

theorem loadEdge_readWord {s : State} {a : Word} (v : Word) (ha : s.addrOk a = true) :
    (loadEdge s a v).mem.readWord (wordIndex a) = v := by
  simp [loadEdge_eq, ha]

theorem State.legal.after_loadEdge {s : State} (hs : s.legal) (a v : Word) : (loadEdge s a v).legal := by
  rw [loadEdge_eq]
  split
  · exact hs.after_writeWord (State.wordIndex_lt ‹_›) v
  · exact hs

theorem State.legal.after_loads {s : State} (hs : s.legal) (loads : List (Word × Word)) :
    State.legal (loads.foldl (fun t e => loadEdge t e.1 e.2) s) := by
  induction loads generalizing s with
  | nil => exact hs
  | cons e loads ih => exact ih (hs.after_loadEdge e.1 e.2)

/-- A program's loads go to the addresses of its words. -/
theorem toInt_of_mem_programLoads {ws : List Word} {k : Nat} (hk : k + ws.length ≤ 2 ^ 31) {e : Word × Word}
    (he : e ∈ programLoads k ws) : (k : Int) ≤ e.1.toInt ∧ e.1.toInt < k + ws.length := by
  induction ws generalizing k with
  | nil => cases he
  | cons w ws ih =>
    rw [List.length_cons] at hk ⊢
    rcases List.mem_cons.1 he with rfl | he
    · rw [toInt_ofNat_of_lt (by omega)]
      omega
    · have := ih (by omega) he
      omega

/-- Loading a program from address `k` on puts its `j`-th word at index `k + j`: no later load goes there. -/
theorem programLoads_readWord {ws : List Word} {k j : Nat} {s : State} {v : Word} (hlegal : s.cfg.legal)
    (hfits : k + ws.length ≤ s.cfg.memSize) (hj : ws[j]? = some v) :
    ((programLoads k ws).foldl (fun t e => loadEdge t e.1 e.2) s).mem.readWord (k + j) = v := by
  induction ws generalizing k j s with
  | nil => simp at hj
  | cons w ws ih =>
    have ⟨_, hmax⟩ := hlegal
    rw [List.length_cons] at hfits
    rw [programLoads, List.foldl_cons]
    cases j with
    | zero =>
      obtain rfl : w = v := by simpa using hj
      have hin : inMemory s (BitVec.ofNat 32 k) := by
        rw [inMemory, toInt_ofNat_of_lt (by omega)]
        omega
      rw [loads_readWord_of_ne]
      · have hread := loadEdge_readWord w (addrOk_of_inMemory hin)
        rwa [wordIndex_ofNat (by omega)] at hread
      · intro e he _
        have := toInt_of_mem_programLoads (by omega) he
        omega
    | succ j =>
      rw [show k + (j + 1) = k + 1 + j by omega]
      exact ih (by rwa [loadEdge_cfg]) (by rw [loadEdge_cfg]; omega) (by simpa using hj)

/-- A word past the end of a program keeps its value when the program is loaded. -/
theorem programLoads_readWord_of_le {ws : List Word} {k j : Nat} (s : State) (hk : k + ws.length ≤ 2 ^ 31)
    (hj : k + ws.length ≤ j) :
    ((programLoads k ws).foldl (fun t e => loadEdge t e.1 e.2) s).mem.readWord j = s.mem.readWord j := by
  refine loads_readWord_of_ne _ s fun e he _ => ?_
  have := toInt_of_mem_programLoads hk he
  omega

/-! ### Release and launch -/

/-- The snapshot of a run that a release starts fits if the sampled `used_len` does (70_reset_and_hazards.md R183). -/
theorem snapshotFits_resetPeriod (s : State) (loads : List (Word × Word)) (n : Word) :
    snapshotFits (resetPeriod s loads n) = true ↔ n.toNat ≤ s.cfg.memSize := by
  rw [resetPeriod_eq]
  exact decide_eq_true_iff

/-- A release that is not refused answers the state after the reset period, whose snapshot fits. -/
theorem release_next {s t : State} {loads : List (Word × Word)} {n : Word} (h : release s loads n = .next t) :
    t = resetPeriod s loads n ∧ n.toNat ≤ s.cfg.memSize := by
  unfold release at h
  dsimp only at h
  split at h
  · next hfits =>
    refine ⟨(Host.Outcome.next.inj h).symm, ?_⟩
    rwa [snapshotFits_resetPeriod] at hfits
  · cases h

theorem release_of_fits {s : State} (loads : List (Word × Word)) {n : Word} (h : n.toNat ≤ s.cfg.memSize) :
    release s loads n = .next (resetPeriod s loads n) := by
  have hfits := (snapshotFits_resetPeriod s loads n).2 h
  simp [release, hfits]

/-- A launch that is not refused is a release. -/
theorem launch_next {s t : State} {ws : List Word} (h : launch s ws = .next t) :
    release s (programLoads 0 ws) (BitVec.ofNat 32 ws.length) = .next t := by
  unfold launch at h
  split at h
  · exact h
  · cases h

theorem resetPeriod_legal {s : State} (hs : s.cfg.legal) (loads : List (Word × Word)) {n : Word}
    (hn : n.toNat ≤ s.cfg.memSize) : (resetPeriod s loads n).legal := by
  obtain ⟨-, hwf, hlisted, -, -⟩ := (assertReset_legal hs).after_loads loads
  rw [loads_frame] at hlisted
  rw [resetPeriod_eq]
  exact ⟨hs, hwf, hlisted, hn, by simp⟩

/-- Settles O56: the loads keep the reset state legal, and it is RUNNING with an empty trace. -/
theorem launchedStatesMeetTheInvariants : Obligations.LaunchedStatesMeetTheInvariants := by
  intro s t ws hs h
  obtain ⟨rfl, hn⟩ := release_next (launch_next h)
  refine ⟨resetPeriod_legal hs _ hn, ?_⟩
  rw [resetPeriod_eq]
  exact ⟨State.traceShape_of_empty rfl rfl rfl, State.explained_of_running rfl⟩

/-- A program that fits in the memory can be launched. -/
theorem launch_of_fits {s : State} {ws : List Word} (hs : s.cfg.legal) (hws : ws.length ≤ s.cfg.memSize) :
    launch s ws = .next { assertReset s with
      mem := ((programLoads 0 ws).foldl (fun t e => loadEdge t e.1 e.2) (assertReset s)).mem
      usedLen := ws.length } := by
  obtain ⟨-, hmax⟩ := hs
  have hlen : (BitVec.ofNat 32 ws.length).toNat = ws.length := Nat.mod_eq_of_lt (by omega)
  rw [launch, if_pos hws, release_of_fits _ (by rwa [hlen]), resetPeriod_eq, hlen]

/-- Settles O53: the launched state is the reset state but for `used_len` and memory, which holds the program. -/
theorem launchLeavesResetState : Obligations.LaunchLeavesResetState := by
  intro s ws hs hws
  have ⟨_, hmax⟩ := hs
  refine ⟨_, launch_of_fits hs hws, assertReset_x s, rfl, fun j v hj => ?_, fun j hj => ?_,
    rfl, rfl, rfl, rfl, rfl, rfl, rfl⟩
  · have hread := programLoads_readWord (s := assertReset s) (k := 0) hs (by simpa using hws) hj
    rwa [Nat.zero_add] at hread
  · refine (programLoads_readWord_of_le (assertReset s) (by omega) (by omega)).trans ?_
    exact Memory.readWord_nil j

end Sys2Proof.Machine
end

section
/-! What the host reads at the core's ports (10_state.md R30, R38). -/

namespace Sys2Proof.Machine

/-- The FSM state of a code that `status` can hold; 5 to 7 are never held (10_state.md R30). -/
def Status.ofCode (c : BitVec 3) : Option Status :=
  match c.toFin with
  | 0 => some .running
  | 1 => some .halted
  | 2 => some .errIllegalOpcode
  | 3 => some .errOutOfBounds
  | 4 => some .errBadDest
  | _ => none

@[simp] theorem Status.ofCode_code (x : Status) : Status.ofCode x.code = some x := by cases x <;> rfl

theorem Status.code_injective {x y : Status} (h : x.code = y.code) : x = y := by
  have hsome : some x = some y := by rw [← Status.ofCode_code x, h, Status.ofCode_code y]
  exact Option.some.inj hsome

theorem Status.code_toNat_le (x : Status) : x.code.toNat ≤ 4 := by cases x <;> decide

/-- Settles O57: the codes are read off the table, and `Status.ofCode` inverts it. -/
theorem statusCodes : Obligations.StatusCodes :=
  ⟨rfl, rfl, rfl, rfl, rfl, Status.code_toNat_le, fun _ _ h => Status.code_injective h⟩

theorem dbgMdata_of_inMemory {s : State} {a : Word} (h : inMemory s a) : dbgMdata s a = wordAt s a := by
  rw [dbgMdata, memRead_of_ok (addrOk_of_inMemory h)]
  rfl

theorem dbgMdata_of_not_inMemory {s : State} {a : Word} (h : ¬ inMemory s a) : dbgMdata s a = 0 := by
  rw [dbgMdata, memRead_of_not_ok (addrOk_of_not_inMemory h)]

/-- Settles O58: the memory port by its two cases; every other port is a field of the state. -/
theorem hostPortsShowTheState : Obligations.HostPortsShowTheState := fun _ _ _ =>
  ⟨dbgMdata_of_inMemory, dbgMdata_of_not_inMemory, rfl, rfl, rfl, rfl, rfl, rfl⟩

end Sys2Proof.Machine
end

section
/-! Memory (20_memory.md): the two primitives check the address, the fetch and LW read through the one, SW alone writes
through the other, and so a word changes in a step only when a SW stores to it. -/

namespace Sys2Proof.Machine

/-! ### MemRead, the fetch and LW (20_memory.md R52) -/

theorem memRead_of_inMemory {s : State} {a : Word} (h : inMemory s a) : memRead s a = .ok (wordAt s a) :=
  memRead_of_ok (addrOk_of_inMemory h)

theorem memRead_of_not_inMemory {s : State} {a : Word} (h : ¬ inMemory s a) : memRead s a = .error ⟨.outOfBounds, a⟩ :=
  memRead_of_not_ok (addrOk_of_not_inMemory h)

theorem exec_lw_of_read {s : State} {b : RegIdx} {imm16 : Imm16} {v : Word}
    (h : memRead s (effAddr s b imm16) = .ok v) (r : RegIdx) :
    exec (.lw r b imm16) s = .next (complete .lw s.pc1 (s.setX r v)) := by
  rw [exec, execLw, h, commit_ok]

theorem exec_lw_of_read_error {s : State} {b : RegIdx} {imm16 : Imm16} {e : Raised}
    (h : memRead s (effAddr s b imm16) = .error e) (r : RegIdx) :
    exec (.lw r b imm16) s = .next (raise s e) := by
  rw [exec, execLw, h, commit_error]

/-- Settles O12: LW commits the register write, or the exception, that its MemRead answers. -/
theorem memReadChecksBounds : Obligations.MemReadChecksBounds := by
  intro s a
  refine ⟨memRead_of_inMemory, memRead_of_not_inMemory, rfl, ?_⟩
  rintro r b imm16 rfl
  cases hread : memRead s (effAddr s b imm16) with
  | ok v => exact ⟨_, exec_lw_of_read hread r, by simp, by simp⟩
  | error e => exact ⟨_, exec_lw_of_read_error hread r, by simp, by simp⟩

/-! ### MemWrite and SW (20_memory.md R53) -/

theorem memWrite_of_inMemory {s : State} {a : Word} (v : Word) (h : inMemory s a) :
    memWrite s a v = .ok { s with mem := s.mem.writeWord a.toInt.toNat v } :=
  memWrite_of_ok v (addrOk_of_inMemory h)

theorem memWrite_of_not_inMemory {s : State} {a : Word} (v : Word) (h : ¬ inMemory s a) :
    memWrite s a v = .error ⟨.outOfBounds, a⟩ :=
  memWrite_of_not_ok v (addrOk_of_not_inMemory h)

theorem storeAddr_eq_none_of_opcode_ne_sw (s : State) {i : Instr} (h : i.opcode ≠ .sw) : storeAddr s i = none := by
  cases i with
  | sw a b imm16 => exact absurd rfl h
  | _ => rfl

/-- Settles O13: a word write reads back and touches no other word; what is not a SW stores nowhere. -/
theorem memWriteChecksBounds : Obligations.MemWriteChecksBounds := by
  intro s a v
  refine ⟨fun hin => ⟨_, memWrite_of_inMemory v hin, ?_⟩, memWrite_of_not_inMemory v,
    fun i t hop h => exec_mem h (storeAddr_eq_none_of_opcode_ne_sw s hop)⟩
  exact ⟨Memory.readWord_writeWord_self .., sameBytesBut_writeWord s _ v,
    fun j hj => Memory.readWord_writeWord_of_ne _ _ hj, fun _ => rfl, rfl, ⟨rfl, rfl, rfl, rfl, rfl⟩, rfl, rfl⟩

/-! ### What changes a word (20_memory.md R60) -/

/-- A LW or SW that passes its check accesses the memory. -/
theorem inMemory_of_ownCheck_none {s : State} {i : Instr} {ea : Word} (ha : accessAddr s i = some ea)
    (hc : ownCheck s i = none) : inMemory s ea := by
  by_contra hout
  rw [ownCheck_of_access ha, if_neg hout] at hc
  cases hc

/-- An instruction that changes a word is a SW to that word. -/
theorem exec_readWord_ne {i : Instr} {s t : State} {j : Nat} (h : exec i s = .next t)
    (hj : t.mem.readWord j ≠ s.mem.readWord j) : ∃ a b imm16, i = .sw a b imm16 ∧
      inMemory s (effAddr s b imm16) ∧ (effAddr s b imm16).toInt = j ∧ t.mem.readWord j = s.x a := by
  obtain ⟨hc, rfl⟩ | ⟨r, -, rfl⟩ := exec_cases h
  · cases hst : storeAddr s i with
    | none => exact absurd (by rw [complete_mem, written_mem s hst]) hj
    | some ea =>
      obtain ⟨a, b, imm16, rfl, rfl⟩ := storeAddr_eq_some_iff.1 hst
      have hin := inMemory_of_ownCheck_none rfl hc
      obtain rfl : j = wordIndex (effAddr s b imm16) := by
        by_contra hne
        exact hj (Memory.readWord_writeWord_of_ne s.mem (s.x a) hne)
      exact ⟨a, b, imm16, rfl, hin, (Int.toNat_of_nonneg hin.1).symm, Memory.readWord_writeWord_self ..⟩
  · exact absurd rfl hj

/-- Settles O42: neither a terminal state nor the Snapshot nor a fetch that raises changes a word, so the executed
instruction has. -/
theorem memoryChangesOnlyByStore : Obligations.MemoryChangesOnlyByStore := by
  intro s t j h hj
  obtain ⟨-, rfl⟩ | ⟨hrun, -, ⟨-, rfl⟩ | ⟨w, hw, hexec⟩⟩ := step_cases h
  · exact absurd rfl hj
  · exact absurd rfl hj
  · obtain ⟨a, b, imm16, hsw, hstore⟩ := exec_readWord_ne (s := emitSnapshot s) hexec hj
    exact ⟨hrun, w, a, b, imm16, hw, hsw, hstore⟩

end Sys2Proof.Machine
end

section
/-! The decoder and the encoder (30_encoding.md). The decoded fields are those of the word, so that decoding an encoded
word gives the instruction back and encoding a decoded word keeps its low 25 bits; a mask of consecutive bits reads off
one range of the word, which gives the canonical form and the opcode map; and the immediate and the destination are the
low half of the word as numbers. -/

namespace Sys2Proof

/-! ### The decoded fields -/

@[simp] theorem opcode_decode (w : Word) : (decode w).opcode = Opcode.ofBits (opcodeField w) :=
  Instr.opcode_ofFields ..

@[simp] theorem regA_decode (w : Word) : (decode w).regA = regAField w := Instr.regA_ofFields ..

@[simp] theorem regB_decode (w : Word) : (decode w).regB = regBField w := Instr.regB_ofFields ..

@[simp] theorem imm16_decode (w : Word) : (decode w).imm16 = imm16Field w := Instr.imm16_ofFields ..

/-- An opcode is decoded from its number and no other. -/
theorem Opcode.ofBits_eq_iff {v : BitVec 3} {op : Opcode} : Opcode.ofBits v = op ↔ v = op.bits :=
  ⟨fun h => by rw [← h, Opcode.bits_ofBits], fun h => by rw [h, Opcode.ofBits_bits]⟩

/-! ### Decoding an encoded word (R70, R81, R82) -/

@[simp] theorem decode_encode (i : Instr) : decode (encode i) = i := by
  rw [decode, encode, opcodeField_enc, regAField_enc, regBField_enc, imm16Field_enc, Opcode.ofBits_bits,
    Instr.ofFields_self]

/-- Decoding from bytes takes the four bytes of a word and leaves the rest. -/
theorem decodeBytes_bytesOfWord (w : Word) (rest : List Byte) :
    decodeBytes (byteOfWord w 0 :: byteOfWord w 1 :: byteOfWord w 2 :: byteOfWord w 3 :: rest) =
      .ok (decode w, rest) := by
  rw [decodeBytes, Machine.wordOfBytes_byteOfWord]

/-- The table numbers the 32 bits of a word as the word does. -/
@[simp] theorem tableWord_toNat (w : Word) : tableWord 32 w.toNat = w := by
  rw [tableWord, Nat.mod_eq_of_lt w.isLt, BitVec.ofNat_toNat, BitVec.setWidth_eq]

theorem decodeTableWord_toNat (w : Word) : decodeTableWord 32 w.toNat = some (decode w) := by
  rw [decodeTableWord, tableWord_toNat, decodeBytes_bytesOfWord]

/-- Settles O2: the three readings of a word agree, and the fields of an encoded word are the instruction's. -/
theorem decodeEncodeRoundTrip : Obligations.DecodeEncodeRoundTrip := by
  intro i
  refine ⟨decode_encode i, fun rest => ?_, ?_⟩
  · rw [decodeBytes_bytesOfWord, decode_encode]
  · rw [decodeTableWord_toNat, decode_encode]

/-- Settles O1: each of the ten closed words is evaluated. -/
theorem decodeWrittenWords : Obligations.DecodeWrittenWords := by
  unfold Obligations.DecodeWrittenWords
  decide

/-! ### Masks of consecutive bits -/

/-- A mask of the bits `lo` to `lo + n - 1` reads off that range of a word, in its place. -/
theorem toNat_and_mask (w : Word) {lo n : Nat} (h : lo + n ≤ 32) :
    (w &&& BitVec.ofNat 32 ((2 ^ n - 1) * 2 ^ lo)).toNat = w.toNat / 2 ^ lo % 2 ^ n * 2 ^ lo := by
  apply Nat.eq_of_testBit_eq
  intro i
  simp only [BitVec.toNat_and, BitVec.toNat_ofNat, Nat.testBit_and, Nat.testBit_mod_two_pow, Nat.testBit_mul_two_pow,
    Nat.testBit_two_pow_sub_one, Nat.testBit_div_two_pow]
  by_cases hi : lo ≤ i
  · by_cases hn : i - lo < n
    · have hlt : i < 32 := by omega
      simp [hi, hn, hlt]
    · simp [hi, hn]
  · simp [hi]

theorem and_mask_eq_zero_iff (w : Word) {lo n : Nat} (h : lo + n ≤ 32) :
    w &&& BitVec.ofNat 32 ((2 ^ n - 1) * 2 ^ lo) = 0 ↔ w.toNat / 2 ^ lo % 2 ^ n = 0 := by
  rw [← BitVec.toNat_inj, toNat_and_mask w h, BitVec.ofNat_eq_ofNat, BitVec.toNat_zero, Nat.mul_eq_zero]
  simp

/-! ### The encoding function (R82) -/

/-- The encoded word as a union of the fields, each shifted to its place. -/
theorem enc_eq_or (op : BitVec 3) (a b : RegIdx) (imm16 : Imm16) :
    enc op a b imm16 = (op.setWidth 32 <<< 22) ||| (BitVec.ofNat 32 a.val <<< 19) ||| (BitVec.ofNat 32 b.val <<< 16) |||
      imm16.setWidth 32 := by
  have hreg : ∀ k : RegIdx, (BitVec.ofNat 3 k.val).setWidth 32 = BitVec.ofNat 32 k.val := by decide
  rw [← BitVec.setWidth_eq (enc op a b imm16), enc]
  simp only [BitVec.setWidth_append_eq_shiftLeft_setWidth_or, BitVec.shiftLeft_or_distrib, ← BitVec.shiftLeft_add, hreg]
  simp

theorem enc_toNat_lt (op : BitVec 3) (a b : RegIdx) (imm16 : Imm16) : (enc op a b imm16).toNat < 2 ^ 25 := by
  rw [enc_toNat]
  omega

/-- Encoding the decoded fields of a word keeps its low 25 bits. -/
theorem enc_decode (w : Word) :
    enc (decode w).opcode.bits (decode w).regA (decode w).regB (decode w).imm16 = w &&& 0x01FFFFFF := by
  apply BitVec.eq_of_toNat_eq
  have hmask : (w &&& 0x01FFFFFF).toNat = w.toNat / 2 ^ 0 % 2 ^ 25 * 2 ^ 0 :=
    toNat_and_mask (lo := 0) (n := 25) w (by decide)
  rw [hmask, enc_toNat, opcode_decode, Opcode.bits_ofBits, opcodeField_toNat, regA_decode, regAField_val, regB_decode,
    regBField_val, imm16_decode, imm16Field_toNat]
  omega

/-- The destination of an ADD or NAND fits when bits 15 to 3 of the word are zero. -/
theorem destFits_iff_enc (op : BitVec 3) (a b : RegIdx) (imm16 : Imm16) :
    destFits imm16 = true ↔ enc op a b imm16 &&& 0x0000FFF8 = 0 := by
  refine Iff.trans ?_ (and_mask_eq_zero_iff (lo := 3) (n := 13) _ (by decide)).symm
  rw [destFits, decide_eq_true_iff, enc_toNat]
  omega

theorem imm16_eq_zero_iff_enc (op : BitVec 3) (a b : RegIdx) (imm16 : Imm16) :
    imm16 = 0 ↔ enc op a b imm16 &&& 0x0000FFFF = 0 := by
  refine Iff.trans ?_ (and_mask_eq_zero_iff (lo := 0) (n := 16) _ (by decide)).symm
  rw [← BitVec.toNat_inj, enc_toNat, BitVec.ofNat_eq_ofNat, BitVec.toNat_zero]
  omega

theorem fields_eq_zero_iff_enc (op : BitVec 3) (a b : RegIdx) (imm16 : Imm16) :
    (regsUnused a b && decide (imm16 = 0)) = true ↔ enc op a b imm16 &&& 0x003FFFFF = 0 := by
  refine Iff.trans ?_ (and_mask_eq_zero_iff (lo := 0) (n := 22) _ (by decide)).symm
  rw [regsUnused, Bool.and_eq_true, Bool.and_eq_true, decide_eq_true_iff, decide_eq_true_iff, decide_eq_true_iff,
    Fin.ext_iff, Fin.ext_iff, ← BitVec.toNat_inj, enc_toNat, BitVec.ofNat_eq_ofNat, BitVec.toNat_zero]
  omega

/-- Settles O3: the canonical form family by family, by the fields that R82 requires to be zero. -/
theorem encodingFunction : Obligations.EncodingFunction := by
  refine ⟨fun op a b imm16 => ⟨enc_eq_or op a b imm16, enc_toNat_lt op a b imm16⟩, enc_decode, fun i => ?_⟩
  cases i with
  | add a b imm16 => exact destFits_iff_enc 0 a b imm16
  | nand a b imm16 => exact destFits_iff_enc 1 a b imm16
  | lw a b imm16 => exact iff_of_true rfl BitVec.and_zero
  | sw a b imm16 => exact iff_of_true rfl BitVec.and_zero
  | beq a b imm16 => exact iff_of_true rfl BitVec.and_zero
  | jalr a b imm16 => exact decide_eq_true_iff.trans (imm16_eq_zero_iff_enc 5 a b imm16)
  | halt a b imm16 => exact fields_eq_zero_iff_enc 6 a b imm16
  | noop a b imm16 => exact fields_eq_zero_iff_enc 7 a b imm16

/-! ### The opcode and the register fields (R72, R73, R77) -/

/-- Settles O4: the ports and the decoded instruction both carry the word's fields. -/
theorem fieldsAreBitRanges : Obligations.FieldsAreBitRanges := fun w =>
  ⟨opcodeField_toNat w, regAField_val w, regBField_val w, by rw [opcode_decode, Opcode.bits_ofBits]; rfl,
    regA_decode w, regB_decode w⟩

/-- The mask 0x01C00000 of R77 selects the opcode: what is left is the word that encodes it with zero operands. -/
theorem opcode_decode_eq_iff (w : Word) (op : Opcode) :
    (decode w).opcode = op ↔ w &&& 0x01C00000 = enc op.bits 0 0 0 := by
  have hmask : (w &&& 0x01C00000).toNat = w.toNat / 2 ^ 22 % 2 ^ 3 * 2 ^ 22 :=
    toNat_and_mask (lo := 22) (n := 3) w (by decide)
  rw [opcode_decode, Opcode.ofBits_eq_iff, ← BitVec.toNat_inj, ← BitVec.toNat_inj, hmask, enc_toNat, opcodeField_toNat,
    BitVec.ofNat_eq_ofNat, BitVec.toNat_zero]
  omega

/-- A one-hot port of the decoder says that the decoded opcode is its own. -/
theorem oneHot_iff (w : Word) (op : Opcode) :
    decide (Opcode.ofBits (opcodeField w) = op) = true ↔ (decode w).opcode = op := by
  rw [decide_eq_true_iff, opcode_decode]

/-- Settles O7: each row of the table is `opcode_decode_eq_iff` at its opcode, whose encoded word is the row's value. -/
theorem opcodeMapOfTheTable : Obligations.OpcodeMapOfTheTable := fun w =>
  ⟨opcode_decode_eq_iff w .add, opcode_decode_eq_iff w .nand, opcode_decode_eq_iff w .lw, opcode_decode_eq_iff w .sw,
    opcode_decode_eq_iff w .beq, opcode_decode_eq_iff w .jalr, opcode_decode_eq_iff w .halt,
    opcode_decode_eq_iff w .noop, oneHot_iff w .add, oneHot_iff w .nand, oneHot_iff w .lw, oneHot_iff w .sw,
    oneHot_iff w .beq, oneHot_iff w .jalr, oneHot_iff w .halt, oneHot_iff w .noop⟩

/-! ### The immediate (R74) -/

/-- The sign bit of the immediate is bit 15 of the word. -/
theorem msb_imm16Field (w : Word) : (imm16Field w).msb = w.getLsbD 15 := by
  simp [BitVec.msb_eq_getLsbD_last, imm16Field]

/-- Sign extension puts sixteen copies of the sign bit above the immediate. -/
theorem sext32_eq_append (imm16 : Imm16) :
    sext32 imm16 = if imm16.msb then (0xFFFF : BitVec 16) ++ imm16 else (0 : BitVec 16) ++ imm16 := by
  rw [sext32, BitVec.signExtend_eq_append_of_le (by decide), BitVec.cast_eq]
  split <;> rfl

/-- The low half of a sign-extended immediate is the immediate. -/
theorem sext32_toNat_mod (imm16 : Imm16) : (sext32 imm16).toNat % 2 ^ 16 = imm16.toNat := by
  rw [sext32, BitVec.toNat_signExtend, BitVec.toNat_setWidth]
  have hlt := imm16.isLt
  split <;> omega

/-- The immediate as a signed number: 2^16 less than the unsigned one when the sign bit is set. -/
theorem sext32_toInt_eq_sub (imm16 : Imm16) :
    (sext32 imm16).toInt = (imm16.toNat : Int) - if imm16.msb then 2 ^ 16 else 0 := by
  rw [sext32_toInt, BitVec.toInt_eq_msb_cond]
  split
  · rfl
  · exact (Int.sub_zero _).symm

theorem sext32_toInt_bounds (imm16 : Imm16) : -32768 ≤ (sext32 imm16).toInt ∧ (sext32 imm16).toInt ≤ 32767 := by
  rw [sext32_toInt]
  exact ⟨BitVec.le_toInt imm16, Int.le_of_lt_add_one BitVec.toInt_lt⟩

/-- Settles O5: the facts about `sext32` at the immediate of the word, whose sign bit is bit 15. -/
theorem signExtensionExact : Obligations.SignExtensionExact := by
  intro w
  obtain ⟨hlo, hhi⟩ := sext32_toInt_bounds (imm16Field w)
  refine ⟨imm16Field_toNat w, imm16_decode w, ?_, ?_, hlo, hhi, ?_⟩
  · rw [← msb_imm16Field]
    exact sext32_eq_append (imm16Field w)
  · rw [← msb_imm16Field]
    exact sext32_toInt_eq_sub (imm16Field w)
  · exact (sext32_toNat_mod (imm16Field w)).trans (imm16Field_toNat w)

/-! ### The destination (R75) -/

/-- The immediate names a register, read unsigned, exactly when it does read signed. -/
theorem toNat_lt_eight_iff_sext32_toInt (imm16 : Imm16) :
    imm16.toNat < 8 ↔ 0 ≤ (sext32 imm16).toInt ∧ (sext32 imm16).toInt ≤ 7 := by
  have hlt := imm16.isLt
  rw [sext32_toInt, BitVec.toInt_eq_toNat_cond]
  split <;> omega

theorem sext32_toInt_of_lt_eight {imm16 : Imm16} (h : imm16.toNat < 8) : (sext32 imm16).toInt = imm16.toNat := by
  rw [sext32_toInt, BitVec.toInt_eq_toNat_of_lt (by omega)]

/-- Settles O6: `dest_ok` says that the immediate is below 8, and `dest` is its low three bits. -/
theorem destinationFieldExact : Obligations.DestinationFieldExact := by
  intro w
  have hok : (decoderPorts w).destOk = true ↔ (imm16Field w).toNat < 8 := destOk_iff (imm16Field w)
  have hdest : (decoderPorts w).dest.val = (imm16Field w).toNat % 8 := destOf_val (imm16Field w)
  refine ⟨?_, ?_, hok.trans (toNat_lt_eight_iff_sext32_toInt _), fun h => ?_⟩
  · rw [hdest, imm16Field_toNat]
    omega
  · rw [hok, imm16Field_toNat]
    omega
  · have hlt := hok.1 h
    rw [hdest, Nat.mod_eq_of_lt hlt]
    exact (sext32_toInt_of_lt_eight hlt).symm

end Sys2Proof
end

section
/-! What decoding leaves out or never reports: ignored fields have no effect (30_encoding.md R79), and no opcode is
illegal (R76). -/

namespace Sys2Proof.Machine

/-- Settles O9: the dispatch does not pass the ignored fields on. -/
theorem ignoredFieldsDoNotMatter : Obligations.IgnoredFieldsDoNotMatter := fun _ _ _ _ _ _ _ => ⟨rfl, rfl, rfl⟩

theorem Exc.status_eq_errIllegalOpcode_iff {e : Exc} : e.status = .errIllegalOpcode ↔ e = .illegalOpcode := by
  cases e <;> decide

theorem raise_status_ne_illegalOpcode (s : State) {r : Raised} (hr : r.exc ≠ .illegalOpcode) :
    (raise s r).status ≠ .errIllegalOpcode := by
  rw [raise_status]
  exact fun h => hr (Exc.status_eq_errIllegalOpcode_iff.1 h)

/-- No instruction enters ERR_ILLEGAL_OPCODE: completing leaves the status or halts, and the check raises another
exception. -/
theorem exec_status_ne_illegalOpcode {i : Instr} {s t : State} (h : exec i s = .next t)
    (hs : s.status ≠ .errIllegalOpcode) : t.status ≠ .errIllegalOpcode := by
  obtain ⟨-, rfl⟩ | ⟨r, hc, rfl⟩ := exec_cases h
  · rw [complete_status, written_status]
    split
    · decide
    · exact hs
  · exact raise_status_ne_illegalOpcode s (ownCheck_ne_illegalOpcode hc)

/-- Settles O10: a step stays where it is, raises OutOfBounds at the fetch, or executes an instruction. -/
theorem illegalOpcodeNeverEntered : Obligations.IllegalOpcodeNeverEntered := by
  refine ⟨fun _ => rfl, fun _ _ _ => exec_status_ne_illegalOpcode, fun s t h hs => ?_⟩
  obtain ⟨-, rfl⟩ | ⟨-, -, ⟨-, rfl⟩ | ⟨w, -, hexec⟩⟩ := step_cases h
  · exact hs
  · exact raise_status_ne_illegalOpcode _ (by simp)
  · exact exec_status_ne_illegalOpcode (s := emitSnapshot s) hexec hs

end Sys2Proof.Machine
end

section
/-! The execution cycle (40_execution_cycle.md). A step from RUNNING makes its checks in the order of R153 and then
raises or completes, so its answer is one `commit`; what a step emits, counts and leads to, and the two invariants of a
run, are read off its two outcomes. -/

namespace Sys2Proof.Machine

/-! ### The fetch -/

theorem fetch_of_inMemory {s : State} (h : inMemory s s.pc) : fetch s = .ok (wordAt s s.pc) := memRead_of_inMemory h

theorem fetch_of_not_inMemory {s : State} (h : ¬ inMemory s s.pc) : fetch s = .error ⟨.outOfBounds, s.pc⟩ :=
  memRead_of_not_inMemory h

theorem fetch_congr {s t : State} (hcfg : t.cfg = s.cfg) (hmem : t.mem = s.mem) (hpc : t.pc = s.pc) :
    fetch t = fetch s := by
  rw [fetch, hpc, memRead_congr hcfg hmem, fetch]

theorem fetch_eq_error_iff {s : State} {r : Raised} :
    fetch s = .error r ↔ ¬ inMemory s s.pc ∧ r = ⟨.outOfBounds, s.pc⟩ := by
  by_cases hin : inMemory s s.pc
  · simp [fetch_of_inMemory hin, hin]
  · simp [fetch_of_not_inMemory hin, hin, eq_comm]

theorem snapshotFits_iff {s : State} : snapshotFits s = true ↔ s.usedLen ≤ s.cfg.memSize := decide_eq_true_iff

/-- Settles O30, by the two cases of the fetch. -/
theorem stepRunsDecodedInstruction : Obligations.StepRunsDecodedInstruction := by
  intro s hrun hfits
  have hfits := snapshotFits_iff.2 hfits
  exact ⟨fun hin => step_of_fetch hrun hfits (fetch_of_inMemory hin), fun hout =>
    ⟨_, step_of_fetch_error hrun hfits (fetch_of_not_inMemory hout), raisedTo_raise _ _ _⟩⟩

/-! ### The rows of 60_exceptions.md R151 after the fetch -/

theorem ownCheck_eq_outOfBounds_iff {s : State} {i : Instr} {info : Word} :
    ownCheck s i = some ⟨.outOfBounds, info⟩ ↔ accessAddr s i = some info ∧ ¬ inMemory s info := by
  refine ⟨fun h => ?_, fun ⟨ha, hout⟩ => by rw [ownCheck_of_access ha, if_neg hout]⟩
  obtain ⟨-, hsome⟩ | ⟨hexc, -⟩ := ownCheck_exc h
  · obtain ⟨ea, ha⟩ := Option.isSome_iff_exists.1 hsome
    rw [ownCheck_of_access ha] at h
    split at h
    · cases h
    · next hout =>
      cases h
      exact ⟨ha, hout⟩
  · cases hexc

theorem ownCheck_eq_badDestination_iff {s : State} {i : Instr} {info : Word} :
    ownCheck s i = some ⟨.badDestination, info⟩ ↔
      ∃ imm16, destImm i = some imm16 ∧ ¬ imm16.toNat < 8 ∧ s.cfg.destPolicy = .fault ∧ info = sext32 imm16 := by
  constructor
  · intro h
    obtain ⟨hexc, -⟩ | ⟨-, hsome⟩ := ownCheck_exc h
    · cases hexc
    · obtain ⟨imm16, hd⟩ := Option.isSome_iff_exists.1 hsome
      rw [ownCheck_of_dest hd] at h
      split at h
      · cases h
      · next hbad =>
        cases h
        obtain ⟨hge, hpolicy⟩ := not_or.1 hbad
        refine ⟨imm16, hd, hge, ?_, rfl⟩
        cases hp : s.cfg.destPolicy with
        | fault => rfl
        | mask3 => exact absurd hp hpolicy
  · rintro ⟨imm16, hd, hge, hpolicy, rfl⟩
    rw [ownCheck_of_dest hd, if_neg (by simp [hge, hpolicy])]

theorem ownCheck_of_halt (s : State) {i : Instr} (h : i.opcode = .halt) : ownCheck s i = none := by
  cases i with
  | halt a b imm16 => rfl
  | _ => cases h

/-! ### The checks of a step -/

/-- The checks of a step from RUNNING in the order of 60_exceptions.md R153: the exception it takes, or the fetched word
that it completes. -/
def stepCheck (s : State) : Except Raised Word :=
  match fetch s with
  | .error r => .error r
  | .ok w => match ownCheck s (decode w) with
    | some r => .error r
    | none => .ok w

/-- The state that a step from RUNNING commits when it completes the fetched word. -/
def completedStep (s : State) (w : Word) : State :=
  complete (decode w).opcode (nextPc s (decode w)) (written (emitSnapshot s) (decode w))

theorem stepCheck_eq_ok_iff {s : State} {w : Word} :
    stepCheck s = .ok w ↔ fetch s = .ok w ∧ ownCheck s (decode w) = none := by
  unfold stepCheck
  cases fetch s with
  | error r => simp
  | ok v =>
    cases hc : ownCheck s (decode v) with
    | some r => simp +contextual [eq_comm, hc]
    | none => simp +contextual [eq_comm, hc]

theorem stepCheck_eq_error_iff {s : State} {r : Raised} :
    stepCheck s = .error r ↔ fetch s = .error r ∨ ∃ w, fetch s = .ok w ∧ ownCheck s (decode w) = some r := by
  unfold stepCheck
  cases fetch s with
  | error r' => simp
  | ok v => cases hc : ownCheck s (decode v) <;> simp [hc]

/-- The Snapshot changes nothing that an instruction's check reads. -/
theorem ownCheck_emitSnapshot (s : State) (i : Instr) : ownCheck (emitSnapshot s) i = ownCheck s i :=
  ownCheck_congr rfl rfl i

/-- The normal form of a step from RUNNING: it commits all its writes, or raises and commits none (R91). -/
theorem step_eq_commit {s : State} (hrun : s.status = .running) (hfits : snapshotFits s = true) :
    step s = commit (emitSnapshot s) (stepCheck s) (completedStep s) := by
  cases hcheck : stepCheck s with
  | error r =>
    obtain hf | ⟨w, hw, hc⟩ := stepCheck_eq_error_iff.1 hcheck
    · rw [step_of_fetch_error hrun hfits hf, commit_error]
    · rw [step_of_fetch hrun hfits hw, exec_of_check_some ((ownCheck_emitSnapshot s _).trans hc), commit_error]
  | ok w =>
    obtain ⟨hw, hc⟩ := stepCheck_eq_ok_iff.1 hcheck
    rw [step_of_fetch hrun hfits hw, exec_of_check_none ((ownCheck_emitSnapshot s _).trans hc),
      nextPc_congr (s := s) (t := emitSnapshot s) rfl rfl, commit_ok, completedStep]

theorem step_of_terminal {s : State} (h : s.terminal) : step s = .next s := by simp [step, h]

theorem eq_of_step_of_terminal {s t : State} (hterm : s.terminal) (h : step s = .next t) : t = s :=
  Host.Outcome.next.inj (h.symm.trans (step_of_terminal hterm))

/-- Inversion of a step from RUNNING: it raises or completes. -/
theorem step_running_cases {s t : State} (hrun : s.status = .running) (h : step s = .next t) :
    (∃ r, stepCheck s = .error r ∧ t = raise (emitSnapshot s) r) ∨
      ∃ w, stepCheck s = .ok w ∧ t = completedStep s w := by
  obtain ⟨hne, -⟩ | ⟨-, hfits, -⟩ := step_cases h
  · exact absurd hrun hne
  · rw [step_eq_commit hrun hfits] at h
    cases hcheck : stepCheck s with
    | error r =>
      rw [hcheck, commit_error] at h
      exact .inl ⟨r, rfl, (Host.Outcome.next.inj h).symm⟩
    | ok w =>
      rw [hcheck, commit_ok] at h
      exact .inr ⟨w, rfl, (Host.Outcome.next.inj h).symm⟩

theorem stepCheck_error_ne_illegalOpcode {s : State} {r : Raised} (h : stepCheck s = .error r) :
    r.exc ≠ .illegalOpcode := by
  obtain hf | ⟨w, -, hc⟩ := stepCheck_eq_error_iff.1 h
  · obtain ⟨-, rfl⟩ := fetch_eq_error_iff.1 hf
    simp
  · exact ownCheck_ne_illegalOpcode hc

/-! ### Where a step stops -/

/-- A step answers a next state, or stops because its Snapshot would read words that do not exist. -/
theorem step_next_or_fault (s : State) :
    ((∃ t, step s = .next t) ∧ (s.terminal ∨ s.usedLen ≤ s.cfg.memSize)) ∨
      (step s = .fault .snapshotOutsideMemory ∧ s.status = .running ∧ s.cfg.memSize < s.usedLen) := by
  by_cases hrun : s.status = .running
  · by_cases hfits : s.usedLen ≤ s.cfg.memSize
    · refine .inl ⟨?_, .inr hfits⟩
      rw [step_eq_commit hrun (snapshotFits_iff.2 hfits)]
      cases stepCheck s with
      | error r => exact ⟨_, commit_error ..⟩
      | ok w => exact ⟨_, commit_ok ..⟩
    · exact .inr ⟨by simp [step, hrun, snapshotFits, hfits], hrun, by omega⟩
  · exact .inl ⟨⟨s, step_of_terminal hrun⟩, .inl hrun⟩

/-- Settles O51, by the two cases of `step_next_or_fault`. -/
theorem stepStopsOnlyOnOversizeSnapshot : Obligations.StepStopsOnlyOnOversizeSnapshot := by
  intro s
  obtain ⟨⟨t, ht⟩, hok⟩ | ⟨hfault, hover⟩ := step_next_or_fault s
  · refine ⟨⟨fun h => ?_, fun ⟨hrun, hover⟩ => ?_⟩, fun r => by simp [ht]⟩
    · rw [ht] at h
      cases h
    · obtain hne | hfits := hok
      · exact absurd hrun hne
      · omega
  · exact ⟨⟨fun _ => hover, fun _ => hfault⟩, fun r => by simp [hfault]⟩

/-- Settles O46: in a legal state `used_len <= MEM_SIZE`, so the one reason to stop is absent. -/
theorem legalStatesAlwaysStep : Obligations.LegalStatesAlwaysStep := by
  intro s hs
  obtain ⟨-, -, -, hfits, -⟩ := hs
  obtain ⟨hnext, -⟩ | ⟨-, -, hover⟩ := step_next_or_fault s
  · exact hnext
  · omega

/-! ### The state a completed step commits -/

theorem completedStep_status {s : State} (hrun : s.status = .running) (w : Word) :
    (completedStep s w).status = if (decode w).opcode = .halt then .halted else .running := by
  rw [completedStep, complete_status, written_status, emitSnapshot_status, hrun]

theorem completedStep_trace (s : State) (w : Word) : (completedStep s w).trace =
    (emitSnapshot s).trace ++ if (decode w).opcode = .halt then [.halted] else [] := by
  rw [completedStep, complete_trace, written_trace]
  split
  · rfl
  · rw [List.append_nil]

theorem completedStep_counted (s : State) (w : Word) : counted (decode w).opcode s (completedStep s w) := by
  simp [counted, completedStep]

theorem completedStep_isError {s : State} (hrun : s.status = .running) (w : Word) :
    (completedStep s w).status.isError = false := by
  rw [completedStep_status hrun]
  split <;> rfl

theorem Exc.status_isError (e : Exc) : e.status.isError = true := by cases e <;> rfl

theorem finalEvents_exc (info : Word) (e : Exc) : finalEvents info e.status = [.error e info] := by cases e <;> rfl

/-- The final event of a run names the exception that its status stands for. -/
theorem Exc.status_injective {e f : Exc} (h : e.status = f.status) : e = f := by
  have hevent : [Event.error e 0] = [.error f 0] := by rw [← finalEvents_exc, h, finalEvents_exc]
  simpa using hevent

/-! ### Counters (R96, R97) -/

/-- Settles O32: of the two outcomes the status tells which one it was, and each says what is counted. -/
theorem countersPerStep : Obligations.CountersPerStep := by
  refine ⟨fun s t hrun h => ?_, by decide⟩
  obtain ⟨r, -, rfl⟩ | ⟨w, hcheck, rfl⟩ := step_running_cases hrun h
  · rw [raise_status, Exc.status_isError]
    exact ⟨nofun, fun _ => ⟨rfl, rfl⟩⟩
  · obtain ⟨hw, -⟩ := stepCheck_eq_ok_iff.1 hcheck
    rw [completedStep_isError hrun]
    exact ⟨fun _ => ⟨w, hw, completedStep_counted s w⟩, nofun⟩

/-! ### The transitions of the FSM (R90) -/

section
variable {s t : State} (hrun : s.status = .running) (h : step s = .next t)
include hrun h

/-- A step leads to the status of an exception exactly when its checks raise that exception. -/
theorem step_status_eq_exc_iff (e : Exc) : t.status = e.status ↔ ∃ info, stepCheck s = .error ⟨e, info⟩ := by
  obtain ⟨⟨exc, info⟩, hcheck, rfl⟩ | ⟨w, hcheck, rfl⟩ := step_running_cases hrun h
  · rw [raise_status, hcheck]
    constructor
    · intro he
      obtain rfl : exc = e := Exc.status_injective he
      exact ⟨info, rfl⟩
    · rintro ⟨_, he⟩
      cases he
      rfl
  · rw [hcheck]
    refine ⟨fun he => ?_, nofun⟩
    have herr := completedStep_isError hrun w
    rw [he, Exc.status_isError] at herr
    cases herr

theorem step_halted_iff : t.status = .halted ↔ ∃ w, stepCheck s = .ok w ∧ (decode w).opcode = .halt := by
  obtain ⟨r, hcheck, rfl⟩ | ⟨w, hcheck, rfl⟩ := step_running_cases hrun h
  · rw [raise_status, hcheck]
    refine ⟨fun he => ?_, nofun⟩
    have herr := r.exc.status_isError
    rw [he] at herr
    cases herr
  · rw [completedStep_status hrun, hcheck]
    simp

end

/-- A step completes a HALT exactly when it fetches one: HALT has no check (R140). -/
theorem stepCheck_halt_iff {s : State} : (∃ w, stepCheck s = .ok w ∧ (decode w).opcode = .halt) ↔
    ∃ w, fetch s = .ok w ∧ (decode w).opcode = .halt := by
  refine exists_congr fun w => and_congr_left fun hop => ?_
  rw [stepCheck_eq_ok_iff, ownCheck_of_halt s hop]
  simp

/-- The rows of 60_exceptions.md R151 for OutOfBounds: the fetch, LW and SW. -/
theorem stepCheck_outOfBounds_iff {s : State} : (∃ info, stepCheck s = .error ⟨.outOfBounds, info⟩) ↔
    ¬ inMemory s s.pc ∨ ∃ w ea, fetch s = .ok w ∧ accessAddr s (decode w) = some ea ∧ ¬ inMemory s ea := by
  simp only [stepCheck_eq_error_iff, fetch_eq_error_iff, ownCheck_eq_outOfBounds_iff, exists_or]
  exact or_congr (by simp) exists_comm

/-- The row of 60_exceptions.md R151 for BadDestination: ADD and NAND. -/
theorem stepCheck_badDestination_iff {s : State} : (∃ info, stepCheck s = .error ⟨.badDestination, info⟩) ↔
    ∃ w imm16, fetch s = .ok w ∧ destImm (decode w) = some imm16 ∧ ¬ imm16.toNat < 8 ∧
      s.cfg.destPolicy = .fault := by
  simp only [stepCheck_eq_error_iff, fetch_eq_error_iff, ownCheck_eq_badDestination_iff]
  constructor
  · rintro ⟨info, ⟨-, hr⟩ | ⟨w, hw, imm16, hd, hge, hpolicy, -⟩⟩
    · cases hr
    · exact ⟨w, imm16, hw, hd, hge, hpolicy⟩
  · rintro ⟨w, imm16, hw, hd, hge, hpolicy⟩
    exact ⟨sext32 imm16, .inr ⟨w, hw, imm16, hd, hge, hpolicy, rfl⟩⟩

/-- Settles O33: the status after a step tells the answer of its checks, and each answer is a row of the table. -/
theorem statusTransitions : Obligations.StatusTransitions := by
  refine ⟨fun s t hrun h => ⟨(step_halted_iff hrun h).trans stepCheck_halt_iff,
    (step_status_eq_exc_iff hrun h .outOfBounds).trans stepCheck_outOfBounds_iff,
    (step_status_eq_exc_iff hrun h .badDestination).trans stepCheck_badDestination_iff, fun hill => ?_⟩,
    fun s t hterm h => ?_, fun _ => rfl⟩
  · obtain ⟨info, hcheck⟩ := (step_status_eq_exc_iff hrun h .illegalOpcode).1 hill
    exact stepCheck_error_ne_illegalOpcode hcheck rfl
  · rw [eq_of_step_of_terminal hterm h]

/-! ### Events (R95, R99) -/

theorem isSnapshot_eq_false_of_mem_finalEvents {info : Word} {st : Status} {e : Event} (he : e ∈ finalEvents info st) :
    e.isSnapshot = false := by
  cases st with
  | running => cases he
  | _ => rw [List.mem_singleton.1 he]; rfl

/-- A step from RUNNING emits its Snapshot and then the final events of the status it leads to. -/
theorem step_running_trace {s t : State} (hrun : s.status = .running) (h : step s = .next t) :
    t.trace = (emitSnapshot s).trace ++ finalEvents t.faultInfo t.status := by
  obtain ⟨r, -, rfl⟩ | ⟨w, -, rfl⟩ := step_running_cases hrun h
  · rw [raise_trace, raise_faultInfo, raise_status, finalEvents_exc]
  · rw [completedStep_trace, completedStep_status hrun]
    split <;> rfl

theorem usedMemory_length (s : State) : (usedMemory s).length = s.usedLen := by simp [usedMemory]

theorem usedMemory_getElem? {s : State} {i : Nat} (h : i < s.usedLen) :
    (usedMemory s)[i]? = some (s.mem.readWord i) := by simp [usedMemory, h]

/-- Settles O31: what follows the Snapshot are final events, and none of them is a Snapshot. -/
theorem snapshotFirst : Obligations.SnapshotFirst := by
  refine ⟨fun s t hrun h => ⟨finalEvents t.faultInfo t.status, ?_, fun e => isSnapshot_eq_false_of_mem_finalEvents⟩,
    fun s => ⟨usedMemory_length s, fun i => usedMemory_getElem?, rfl⟩, fun s t hterm h => ?_⟩
  · rw [step_running_trace hrun h, emitSnapshot_trace, List.append_assoc, List.singleton_append]
  · rw [eq_of_step_of_terminal hterm h]

/-- A step from RUNNING is one Snapshot more: a completed one is counted, and one that raises ends in an error state. -/
theorem step_running_snapshotCount {s t : State} (hrun : s.status = .running) (h : step s = .next t) :
    snapshotCount t = snapshotCount s + 1 := by
  have hs : snapshotCount s = s.instrCount := by rw [snapshotCount, hrun]; rfl
  rw [hs]
  obtain ⟨r, -, rfl⟩ | ⟨w, -, rfl⟩ := step_running_cases hrun h
  · rw [snapshotCount, raise_status, Exc.status_isError]
    rfl
  · obtain ⟨hcount, -⟩ := completedStep_counted s w
    rw [snapshotCount, completedStep_isError hrun, hcount]
    rfl

/-- Settles O48: a RUNNING trace is Snapshots only, and the step adds one more and the final events. -/
theorem stepKeepsTraceShape : Obligations.StepKeepsTraceShape := by
  intro s t hs h
  by_cases hrun : s.status = .running
  · obtain ⟨snaps, htrace, hall, hlen⟩ := hs
    rw [hrun, finalEvents, List.append_nil] at htrace
    refine ⟨snaps ++ [.snapshot s.pc (usedMemory s) s.regs], ?_, ?_, ?_⟩
    · rw [step_running_trace hrun h, emitSnapshot_trace, htrace]
    · simp only [List.mem_append, List.mem_singleton]
      rintro e (he | rfl)
      · exact hall e he
      · rfl
    · rw [List.length_append, hlen, step_running_snapshotCount hrun h]
      rfl
  · rwa [eq_of_step_of_terminal hrun h]

/-! ### What a terminal state says (R140, R151, R152) -/

/-- An exception leaves pc, memory and the registers, so the check that raised it can be made again after it. -/
theorem raise_explained {s : State} {r : Raised} (h : stepCheck s = .error r) :
    (raise (emitSnapshot s) r).explained := by
  have hfetch : fetch (raise (emitSnapshot s) r) = fetch s := fetch_congr rfl rfl rfl
  obtain hf | ⟨w, hw, hc⟩ := stepCheck_eq_error_iff.1 h
  · obtain ⟨-, rfl⟩ := fetch_eq_error_iff.1 hf
    exact .inl ⟨hfetch.trans hf, rfl⟩
  · have hcheck : ownCheck (raise (emitSnapshot s) r) (decode w) = some r := (ownCheck_congr rfl rfl _).trans hc
    obtain ⟨exc, info⟩ := r
    cases exc with
    | outOfBounds => exact .inr ⟨w, hfetch.trans hw, hcheck⟩
    | badDestination => exact ⟨w, hfetch.trans hw, hcheck⟩
    | illegalOpcode => exact stepCheck_error_ne_illegalOpcode h rfl

/-- HALT keeps pc and memory, so the word at pc is still the HALT (90_conflicts.md C2). -/
theorem fetch_completedStep_of_halt {s : State} {w : Word} (hop : (decode w).opcode = .halt) :
    fetch (completedStep s w) = fetch s := by
  unfold completedStep
  cases hi : decode w with
  | halt a b imm16 => exact fetch_congr rfl rfl rfl
  | _ =>
    rw [hi] at hop
    cases hop

theorem completedStep_explained {s : State} {w : Word} (hrun : s.status = .running) (hw : fetch s = .ok w) :
    (completedStep s w).explained := by
  by_cases hop : (decode w).opcode = .halt
  · rw [State.explained, completedStep_status hrun, if_pos hop]
    exact ⟨w, (fetch_completedStep_of_halt hop).trans hw, hop⟩
  · exact State.explained_of_running (by rw [completedStep_status hrun, if_neg hop])

/-- Settles O49: nothing changes in a terminal state, and from RUNNING each outcome of the step explains itself. -/
theorem stepKeepsTerminalStatesExplained : Obligations.StepKeepsTerminalStatesExplained := by
  intro s t hs h
  by_cases hrun : s.status = .running
  · obtain ⟨r, hcheck, rfl⟩ | ⟨w, hcheck, rfl⟩ := step_running_cases hrun h
    · exact raise_explained hcheck
    · obtain ⟨hw, -⟩ := stepCheck_eq_ok_iff.1 hcheck
      exact completedStep_explained hrun hw
  · rwa [eq_of_step_of_terminal hrun h]

/-! ### A branch to itself (R99, R131) -/

theorem run_succ_of_step (M : Host.Core) {s t : M.State} (n : Nat) (h : M.step s = .next t) :
    M.run (n + 1) s = M.run n t := by
  rw [Host.Core.run, h]

/-- The branch target `pc + 1 + imm` of the offset -1 is pc. -/
theorem nextPc_beq_self (s : State) (r : RegIdx) : nextPc s (.beq r r 0xFFFF) = s.pc := by
  have hoff : (1 : Word) + sext32 0xFFFF = 0 := by decide
  rw [nextPc, if_pos rfl, BitVec.add_assoc, hoff, add_zero]

/-- One turn of the loop: the step emits the Snapshot and counts the BEQ, and that is all. -/
theorem step_of_beq_self {s : State} {w : Word} {r : RegIdx} (hrun : s.status = .running)
    (hfits : s.usedLen ≤ s.cfg.memSize) (hw : fetch s = .ok w) (hdec : decode w = .beq r r 0xFFFF) :
    step s = .next (complete .beq s.pc (emitSnapshot s)) := by
  have hcheck : stepCheck s = .ok w := stepCheck_eq_ok_iff.2 ⟨hw, by rw [hdec]; rfl⟩
  rw [step_eq_commit hrun (snapshotFits_iff.2 hfits), hcheck, commit_ok, completedStep, hdec, nextPc_beq_self]
  rfl

/-- Settles O43, by induction on the number of steps: one turn leads to a state in which the same word is fetched. -/
theorem branchToItselfNeverEnds : Obligations.BranchToItselfNeverEnds := by
  intro s w r n hrun hfits hw hdec
  induction n generalizing s with
  | zero => exact ⟨s, rfl, hrun, rfl, fun _ => rfl, fun _ => rfl, rfl, by simp⟩
  | succ n ih =>
    have hfetch : fetch (complete .beq s.pc (emitSnapshot s)) = .ok w := (fetch_congr rfl rfl rfl).trans hw
    obtain ⟨t, hturns, hst, hpc, hregs, hbytes, hinstr, hcycle⟩ :=
      ih (complete .beq s.pc (emitSnapshot s)) hrun hfits hfetch
    refine ⟨t, ?_, hst, hpc, hregs, hbytes, ?_, ?_⟩
    · exact (run_succ_of_step Sys2Proof.core n (step_of_beq_self hrun hfits hw hdec)).trans hturns
    · rw [hinstr, complete_instrCount, emitSnapshot_instrCount]
      omega
    · rw [hcycle, complete_cycleCount, emitSnapshot_cycleCount, complete_cfg, emitSnapshot_cfg, Cost.of, Nat.succ_mul]
      omega

end Sys2Proof.Machine
end

section
/-! The ALU, and ADD and NAND (41_alu.md): the two instructions resolve the destination and write the ALU's result there,
so what holds of both is said once, of `execAlu`. -/

namespace Sys2Proof.Machine

/-! ### The ALU (R111) -/

theorem aluY_add_toNat (a b : Word) : (aluY .add a b).toNat = (a.toNat + b.toNat) % 2 ^ 32 := BitVec.toNat_add a b

theorem aluY_nand_getLsbD (a b : Word) {i : Nat} (hi : i < 32) :
    (aluY .nand a b).getLsbD i = !(a.getLsbD i && b.getLsbD i) := by
  simp [aluY, hi]

theorem aluEq_iff_getLsbD (a b : Word) : aluEq a b = true ↔ ∀ i : Nat, i < 32 → a.getLsbD i = b.getLsbD i := by
  rw [aluEq, beq_iff_eq]
  exact ⟨fun hab _ _ => by rw [hab], BitVec.eq_of_getLsbD_eq⟩

/-- Settles O15, by the three facts about the ALU's outputs. -/
theorem aluComputes : Obligations.AluComputes := fun a b =>
  ⟨aluY_add_toNat a b, fun _ => aluY_nand_getLsbD a b, aluEq_iff_getLsbD a b⟩

/-! ### The destination (R112) -/

theorem eq_destOf {imm16 : Imm16} {k : RegIdx} (hk : k.val = imm16.toNat % 8) : k = destOf imm16 :=
  Fin.ext (hk.trans (destOf_val imm16).symm)

/-- Under FAULT an immediate that names no register is the case in which resolution fails. -/
theorem dest_not_ok_of_fault {imm16 : Imm16} {p : DestPolicy} (hge : ¬ imm16.toNat < 8) (hp : p = .fault) :
    ¬ (imm16.toNat < 8 ∨ p = .mask3) := by
  simp [hge, hp]

/-- Settles O17: the register a destination names is `destOf`, and resolution answers it or raises. -/
theorem destinationResolution : Obligations.DestinationResolution := by
  refine ⟨fun p imm16 k hk => ?_, rfl⟩
  obtain rfl := eq_destOf hk
  exact ⟨fun hlt => resolveDest_of_ok (.inl hlt), fun hp => resolveDest_of_ok (.inr hp),
    fun hge hp => resolveDest_of_not_ok (dest_not_ok_of_fault hge hp)⟩

/-! ### ADD and NAND (R113, R114) -/

/-- The effect of a step that completes by writing one register, whatever its new pc. -/
theorem complete_setX_effect (s : State) (op : Opcode) (p : Word) (k : RegIdx) (v : Word) :
    let t := complete op p (s.setX k v)
    t.x k = v ∧ t.pc = p ∧ sameRegsBut k s t ∧ sameBytes s t ∧ quiet s t ∧ counted op s t :=
  ⟨s.x_setX_self k v, rfl, s.setX_sameRegsBut k v, fun _ => rfl, s.setX_quiet k v, rfl, rfl⟩

section
variable {op : AluOp} {code : Opcode} {a b : RegIdx} {imm16 : Imm16} {s : State}

theorem execAlu_of_ok (h : imm16.toNat < 8 ∨ s.cfg.destPolicy = .mask3) : execAlu op code a b imm16 s =
    .next (complete code s.pc1 (s.setX (destOf imm16) (aluY op (s.x a) (s.x b)))) := by
  rw [execAlu, resolveDest_of_ok h, commit_ok]

theorem execAlu_of_not_ok (h : ¬ (imm16.toNat < 8 ∨ s.cfg.destPolicy = .mask3)) :
    execAlu op code a b imm16 s = .next (raise s ⟨.badDestination, sext32 imm16⟩) := by
  rw [execAlu, resolveDest_of_not_ok h, commit_error]

/-- With a destination that resolves, the ALU's result is written there and the step completes. -/
theorem execAlu_writes_result (h : imm16.toNat < 8 ∨ s.cfg.destPolicy = .mask3) {k : RegIdx}
    (hk : k.val = imm16.toNat % 8) :
    ∃ t, execAlu op code a b imm16 s = .next t ∧ t.x k = aluY op (s.x a) (s.x b) ∧ t.pc = s.pc + 1 ∧
      sameRegsBut k s t ∧ sameBytes s t ∧ quiet s t ∧ counted code s t := by
  obtain rfl := eq_destOf hk
  exact ⟨_, execAlu_of_ok h, complete_setX_effect s code s.pc1 _ _⟩

/-- With one that does not, the step raises and commits nothing. -/
theorem execAlu_raises (hge : ¬ imm16.toNat < 8) (hp : s.cfg.destPolicy = .fault) :
    ∃ t, execAlu op code a b imm16 s = .next t ∧ raisedTo s t .badDestination (imm16.signExtend 32) :=
  ⟨_, execAlu_of_not_ok (dest_not_ok_of_fault hge hp), raisedTo_raise s _ _⟩

end

/-- Settles O18: ADD is `execAlu` with the ALU's sum. -/
theorem addWritesSumOrRaises : Obligations.AddWritesSumOrRaises := fun a b imm16 _ =>
  ⟨decode_encode (.add a b imm16), fun hok _ hk => execAlu_writes_result hok hk, execAlu_raises⟩

/-- Settles O19: NAND is `execAlu` with the ALU's bitwise NAND. -/
theorem nandWritesResultOrRaises : Obligations.NandWritesResultOrRaises := fun a b imm16 _ =>
  ⟨decode_encode (.nand a b imm16), fun hok _ hk => execAlu_writes_result hok hk, execAlu_raises⟩

end Sys2Proof.Machine
end

section
/-! LW and SW (42_load_store.md R122, R123): the two make the same check of the same effective address, so where either
completes and where it raises is said once, of any instruction that accesses memory. -/

namespace Sys2Proof.Machine

/-! ### The access -/

section
variable {i : Instr} {s : State} {ea : Word}

theorem exec_access_of_inMemory (ha : accessAddr s i = some ea) (hin : inMemory s ea) :
    exec i s = .next (complete i.opcode (nextPc s i) (written s i)) :=
  exec_of_check_none (by rw [ownCheck_of_access ha, if_pos hin])

/-- Outside the memory the access raises and commits nothing. -/
theorem exec_access_raises (ha : accessAddr s i = some ea) (hout : ¬ inMemory s ea) :
    ∃ t, exec i s = .next t ∧ raisedTo s t .outOfBounds ea :=
  ⟨_, exec_of_check_some (by rw [ownCheck_of_access ha, if_neg hout]), raisedTo_raise s _ _⟩

end

/-! ### LW and SW -/

/-- The effect of a step that completes by writing one word of memory, whatever its new pc. -/
theorem complete_writeWord_effect (s : State) (op : Opcode) (p : Word) (a v : Word) :
    let t := complete op p { s with mem := s.mem.writeWord a.toInt.toNat v }
    wordAt t a = v ∧ t.pc = p ∧ sameRegs s t ∧ sameBytesBut a.toInt.toNat s t ∧ quiet s t ∧ counted op s t :=
  ⟨Memory.readWord_writeWord_self .., rfl, fun _ => rfl, sameBytesBut_writeWord s _ v, ⟨rfl, rfl, rfl, rfl, rfl⟩,
    rfl, rfl⟩

/-- Settles O20: inside the memory LW completes by writing the word it read to `a`, and outside it raises. -/
theorem lwLoadsWordOrRaises : Obligations.LwLoadsWordOrRaises := fun a b imm16 s =>
  ⟨decode_encode (.lw a b imm16), rfl,
    fun hin => ⟨_, exec_access_of_inMemory rfl hin, complete_setX_effect s .lw (s.pc + 1) a _⟩, exec_access_raises rfl⟩

/-- Settles O21: inside the memory SW completes by writing `x[a]` to the word addressed, and outside it raises. -/
theorem swStoresWordOrRaises : Obligations.SwStoresWordOrRaises := fun a b imm16 s =>
  ⟨decode_encode (.sw a b imm16), rfl,
    fun hin => ⟨_, exec_access_of_inMemory rfl hin, complete_writeWord_effect s .sw (s.pc + 1) _ (s.x a)⟩,
    exec_access_raises rfl⟩

end Sys2Proof.Machine
end

section
/-! BEQ and JALR (43_control.md R130 to R132). Neither makes a check of its own, so both complete, wherever they lead; a
target outside the memory is found by the fetch of the next step. -/

namespace Sys2Proof.Machine

/-! ### BEQ and JALR -/

/-- The effect of a step that completes by writing its pc alone. -/
theorem complete_effect (s : State) (op : Opcode) (p : Word) :
    let t := complete op p s
    sameRegs s t ∧ sameBytes s t ∧ quiet s t ∧ counted op s t :=
  ⟨fun _ => rfl, fun _ => rfl, ⟨rfl, rfl, rfl, rfl, rfl⟩, rfl, rfl⟩

/-- Settles O22: BEQ completes in `nextPc`, whose two cases are those of the comparison. -/
theorem beqBranchesOnEquality : Obligations.BeqBranchesOnEquality := fun a b imm16 s =>
  ⟨decode_encode (.beq a b imm16), _, exec_of_check_none (i := .beq a b imm16) rfl, fun heq => if_pos heq,
    fun hne => if_neg hne, complete_effect s .beq _⟩

/-- Settles O23: JALR completes in the old `x[b]` and has written the link, `pc + 1`, to `a`. -/
theorem jalrJumpsAndLinks : Obligations.JalrJumpsAndLinks := fun a b imm16 s => by
  obtain ⟨hlink, hpc, hframe⟩ := complete_setX_effect s .jalr (s.x b) a (s.pc + 1)
  exact ⟨decode_encode (.jalr a b imm16), _, exec_of_check_none (i := .jalr a b imm16) rfl, hpc, hlink, hframe⟩

/-! ### A target outside the memory (R130) -/

theorem ownCheck_of_beq_or_jalr (s : State) {i : Instr} (h : i.opcode = .beq ∨ i.opcode = .jalr) :
    ownCheck s i = none := by
  cases i with
  | beq a b imm16 => rfl
  | jalr a b imm16 => rfl
  | _ => simp [Instr.opcode] at h

/-- A step from RUNNING whose checks all pass completes. -/
theorem step_of_stepCheck_ok {s : State} {w : Word} (hrun : s.status = .running) (hfits : s.usedLen ≤ s.cfg.memSize)
    (hcheck : stepCheck s = .ok w) : step s = .next (completedStep s w) := by
  rw [step_eq_commit hrun (snapshotFits_iff.2 hfits), hcheck, commit_ok]

/-- A step from RUNNING with pc outside the memory raises OutOfBounds at the fetch. -/
theorem step_of_pc_not_inMemory {s : State} (hrun : s.status = .running) (hfits : s.usedLen ≤ s.cfg.memSize)
    (hout : ¬ inMemory s s.pc) : step s = .next (raise (emitSnapshot s) ⟨.outOfBounds, s.pc⟩) :=
  step_of_fetch_error hrun (snapshotFits_iff.2 hfits) (fetch_of_not_inMemory hout)

/-- Settles O44: BEQ and JALR complete in `nextPc`, and the parameters are the same there, so the next fetch fails. -/
theorem targetOutsideMemoryFaultsAtNextFetch : Obligations.TargetOutsideMemoryFaultsAtNextFetch := by
  intro s w hrun hfits hw hop hout
  have hcheck : stepCheck s = .ok w := stepCheck_eq_ok_iff.2 ⟨hw, ownCheck_of_beq_or_jalr s hop⟩
  have hrun' : (completedStep s w).status = .running := by
    rw [completedStep_status hrun, if_neg (by rcases hop with h | h <;> simp [h])]
  have hpc : (completedStep s w).pc = nextPc s (decode w) := rfl
  have hcfg : (completedStep s w).cfg = s.cfg := by simp [completedStep]
  have hused : (completedStep s w).usedLen = s.usedLen := by simp [completedStep]
  have hout' : ¬ inMemory (completedStep s w) (completedStep s w).pc := by rwa [inMemory, hcfg, hpc]
  exact ⟨_, _, step_of_stepCheck_ok hrun hfits hcheck, hrun', hpc, completedStep_counted s w,
    step_of_pc_not_inMemory hrun' (by rwa [hcfg, hused]) hout', rfl, hpc, rfl, rfl, rfl⟩

end Sys2Proof.Machine
end

section
/-! HALT and NOOP (44_system.md R140, R141). Neither makes a check of its own nor writes a register or memory, so both
complete; HALT has written the Halted event and the status, and keeps its pc. -/

namespace Sys2Proof.Machine

/-- The state in which HALT completes (R140). -/
theorem exec_halt (a b : RegIdx) (imm16 : Imm16) (s : State) : exec (.halt a b imm16) s =
    .next (complete .halt s.pc { emit s .halted with status := .halted }) :=
  exec_of_check_none (i := .halt a b imm16) rfl

/-- The state in which NOOP completes (R141). -/
theorem exec_noop (a b : RegIdx) (imm16 : Imm16) (s : State) :
    exec (.noop a b imm16) s = .next (complete .noop (s.pc + 1) s) :=
  exec_of_check_none (i := .noop a b imm16) rfl

/-- Settles O24: HALT completes at its own pc; what it keeps is the frame of an instruction that writes no register and
no memory. -/
theorem haltStopsAndCounts : Obligations.HaltStopsAndCounts := fun a b imm16 s => by
  have hexec := exec_halt a b imm16 s
  obtain ⟨hregs, hbytes, hcfg, hused, hfault, -⟩ := noWriteFrame _ s _ rfl rfl hexec
  exact ⟨decode_encode (.halt a b imm16), rfl, _, hexec, rfl, rfl, rfl, hregs, hbytes, ⟨rfl, rfl⟩, hcfg, hused, hfault⟩

/-- Settles O25: NOOP completes at the next address with nothing written. -/
theorem noopOnlyAdvances : Obligations.NoopOnlyAdvances := fun a b imm16 s =>
  ⟨decode_encode (.noop a b imm16), rfl, _, exec_noop a b imm16 s, rfl, complete_effect s .noop (s.pc + 1)⟩

end Sys2Proof.Machine
end

section
/-! Exceptions (60_exceptions.md R151, R152). A step from RUNNING takes the exception that its checks answer, so each
row of the table is what the checks answer in that row's situation. -/

namespace Sys2Proof.Machine

/-! ### Precision (R152) -/

/-- Settles O35: the step that ends in an error state is the one that raised, and it took the exception on the state
after its Snapshot; the Snapshot adds an event and nothing else. -/
theorem exceptionsArePrecise : Obligations.ExceptionsArePrecise := by
  intro s t hrun h herr
  obtain ⟨r, -, rfl⟩ | ⟨w, -, rfl⟩ := step_running_cases hrun h
  · exact ⟨r.exc, raisedTo_raise (emitSnapshot s) r.exc r.info, rfl, fun _ => rfl, rfl, rfl, rfl⟩
  · rw [completedStep_isError hrun] at herr
    cases herr

/-! ### The table (R151) -/

/-- An instruction raises nothing when its address, if it accesses one, is in the memory and its destination, if it
names one by an immediate, resolves. -/
theorem ownCheck_eq_none {s : State} {i : Instr} (haddr : ∀ ea, accessAddr s i = some ea → inMemory s ea)
    (hdest : ∀ imm16, destImm i = some imm16 → imm16.toNat < 8 ∨ s.cfg.destPolicy = .mask3) :
    ownCheck s i = none := by
  refine Option.eq_none_iff_forall_ne_some.2 fun r hc => ?_
  obtain ⟨-, hsome⟩ | ⟨-, hsome⟩ := ownCheck_exc hc
  · obtain ⟨ea, ha⟩ := Option.isSome_iff_exists.1 hsome
    rw [ownCheck_of_access ha, if_pos (haddr ea ha)] at hc
    cases hc
  · obtain ⟨imm16, hd⟩ := Option.isSome_iff_exists.1 hsome
    rw [ownCheck_of_dest hd, if_pos (hdest imm16 hd)] at hc
    cases hc

/-- A step from RUNNING whose checks answer an exception ends with that exception's code and value. -/
theorem step_code_of_stepCheck_error {s : State} {e : Exc} {info : Word} (hrun : s.status = .running)
    (hfits : s.usedLen ≤ s.cfg.memSize) (hcheck : stepCheck s = .error ⟨e, info⟩) :
    ∃ t, step s = .next t ∧ t.status.code = e.status.code ∧ t.faultInfo = info := by
  refine ⟨raise (emitSnapshot s) ⟨e, info⟩, ?_, rfl, rfl⟩
  rw [step_eq_commit hrun (snapshotFits_iff.2 hfits), hcheck, commit_error]

/-- Settles O36: the rows for the fetch, for LW and SW, and for ADD and NAND name what the checks answer; outside them
every check passes and the step completes. -/
theorem exceptionTable : Obligations.ExceptionTable := by
  refine ⟨fun s hrun hfits => ⟨fun hout => ?_, fun w ea hw ha hout => ?_, fun w imm16 hw hd hge hp => ?_,
    fun w hw haddr hdest => ?_⟩, rfl, rfl, rfl⟩
  · exact step_code_of_stepCheck_error hrun hfits
      (stepCheck_eq_error_iff.2 (.inl (fetch_of_not_inMemory hout)))
  · have hc := ownCheck_eq_outOfBounds_iff.2 ⟨ha, hout⟩
    exact step_code_of_stepCheck_error hrun hfits (stepCheck_eq_error_iff.2 (.inr ⟨w, hw, hc⟩))
  · have hc := ownCheck_eq_badDestination_iff.2 ⟨imm16, hd, hge, hp, rfl⟩
    exact step_code_of_stepCheck_error hrun hfits (stepCheck_eq_error_iff.2 (.inr ⟨w, hw, hc⟩))
  · have hcheck : stepCheck s = .ok w := stepCheck_eq_ok_iff.2 ⟨hw, ownCheck_eq_none haddr hdest⟩
    exact ⟨completedStep s w, step_of_stepCheck_ok hrun hfits hcheck, completedStep_isError hrun w⟩

end Sys2Proof.Machine
end

section
/-! The host's side of reset (70_reset_and_hazards.md R180 to R183): what one load edge does, what a list of them leaves
in memory, when a release or a launch is refused, and the run that a release starts. -/

namespace Sys2Proof.Machine

/-! ### One load edge (R181) -/

theorem loadEdge_of_inMemory {s : State} {a : Word} (v : Word) (h : inMemory s a) :
    loadEdge s a v = { s with mem := s.mem.writeWord a.toInt.toNat v } := by
  rw [loadEdge_eq, if_pos (addrOk_of_inMemory h), wordIndex]

theorem loadEdge_of_not_inMemory {s : State} {a : Word} (v : Word) (h : ¬ inMemory s a) : loadEdge s a v = s := by
  rw [loadEdge_eq, if_neg (by simp [addrOk_of_not_inMemory h])]

/-- The memory a load edge leaves depends on the memory and the parameters before it, and on nothing else. -/
theorem loadEdge_mem_congr {s t : State} (hcfg : t.cfg = s.cfg) (hmem : t.mem = s.mem) (a v : Word) :
    (loadEdge t a v).mem = (loadEdge s a v).mem := by
  simp [loadEdge_eq, State.addrOk_congr hcfg, hmem]

/-! ### A list of load edges -/

theorem loads_cfg (loads : List (Word × Word)) (s : State) :
    (loads.foldl (fun t e => loadEdge t e.1 e.2) s).cfg = s.cfg := by rw [loads_frame]

theorem resetPeriod_mem (s : State) (loads : List (Word × Word)) (n : Word) : (resetPeriod s loads n).mem =
    (loads.foldl (fun t e => loadEdge t e.1 e.2) (assertReset s)).mem := rfl

/-- The last load to an address inside the memory is what the word there holds. -/
theorem loads_readWord_of_last (before : List (Word × Word)) {after : List (Word × Word)} {s : State} {a : Word}
    (v : Word) (hin : inMemory s a) (hlast : ∀ e ∈ after, e.1 ≠ a) :
    ((before ++ (a, v) :: after).foldl (fun t e => loadEdge t e.1 e.2) s).mem.readWord a.toInt.toNat = v := by
  rw [List.foldl_append, List.foldl_cons, loads_readWord_of_ne]
  · refine loadEdge_readWord v (addrOk_of_inMemory ?_)
    rwa [inMemory, loads_cfg]
  · intro e he _
    rw [Int.toNat_of_nonneg hin.1]
    exact fun h => hlast e he (BitVec.eq_of_toInt_eq h)

/-- Settles O55: by the two cases of one load edge; the period's last edge acts on what the edges before it left. -/
theorem loadEdgeWritesOrIgnores : Obligations.LoadEdgeWritesOrIgnores := by
  intro s a v n loads
  refine ⟨fun hin => ?_, loadEdge_of_not_inMemory v, rfl, ?_⟩
  · rw [loadEdge_of_inMemory v hin]
    exact ⟨Memory.readWord_writeWord_self .., sameBytesBut_writeWord s _ v, fun _ => rfl, rfl,
      ⟨rfl, rfl, rfl, rfl, rfl⟩, rfl, rfl⟩
  · rw [resetPeriod_mem, List.foldl_append, List.foldl_cons, List.foldl_nil]
    refine loadEdge_mem_congr ?_ (resetPeriod_mem s loads n).symm a v
    rw [resetPeriod]

/-! ### Refusals (R183) -/

theorem release_of_oversize {s : State} (loads : List (Word × Word)) {n : Word} (h : s.cfg.memSize < n.toNat) :
    release s loads n = .refused .usedLenOverMemory := by
  refine if_neg ?_
  rw [snapshotFits_resetPeriod]
  omega

theorem launch_of_oversize {s : State} {ws : List Word} (h : s.cfg.memSize < ws.length) :
    launch s ws = .refused .programTooLong := if_neg (by omega)

/-- Settles O54: each is the branch that its length selects. -/
theorem oversizeLaunchIsRefused : Obligations.OversizeLaunchIsRefused := fun _ _ loads _ =>
  ⟨launch_of_oversize, release_of_oversize loads, release_of_fits loads⟩

/-! ### The run that a release starts (R182) -/

/-- The first step after a reset period fetches at address 0, which every legal memory has. -/
theorem step_resetPeriod {s : State} (hs : s.cfg.legal) (loads : List (Word × Word)) {n : Word}
    (hn : n.toNat ≤ s.cfg.memSize) : step (resetPeriod s loads n) =
      exec (decode ((resetPeriod s loads n).mem.readWord 0)) (emitSnapshot (resetPeriod s loads n)) := by
  have hfits := (snapshotFits_resetPeriod s loads n).2 hn
  rw [resetPeriod_eq] at hfits ⊢
  have hin : inMemory (assertReset s) 0 := ⟨le_rfl, Int.natCast_pos.2 hs.1⟩
  exact step_of_fetch rfl hfits (fetch_of_inMemory hin)

/-- Settles O59: the released state is the reset state but for `used_len` and memory, and memory is what the loads leave
of an empty one. -/
theorem releaseStartsARun : Obligations.ReleaseStartsARun := by
  intro s loads n hs hn
  have hfirst := step_resetPeriod hs loads hn
  refine ⟨_, release_of_fits loads hn, ?_⟩
  rw [resetPeriod_eq] at hfirst ⊢
  refine ⟨assertReset_x s, rfl, rfl, rfl, rfl, rfl, rfl, rfl, ?_, fun j hj => ?_, hfirst⟩
  · rintro before a v after rfl hin hlast
    exact loads_readWord_of_last (s := assertReset s) before v hin hlast
  · refine (loads_readWord_of_ne loads (assertReset s) fun e he _ => hj e he).trans ?_
    exact Memory.readWord_nil j

end Sys2Proof.Machine
end

section
/-! Noninterference of what only the host reads (10_state.md section 5): the counters, `fault_info`, `used_len` and the
trace. Two states that agree on everything else make the same checks, and what a step then writes to the rest, and adds
to the counters, is the same. -/

namespace Sys2Proof.Machine

/-- The states agree on all that an instruction reads: the parameters, the registers, pc, memory and `status`. -/
structure SameMachine (s s' : State) : Prop where
  cfg : s'.cfg = s.cfg
  regs : s'.regs = s.regs
  pc : s'.pc = s.pc
  mem : s'.mem = s.mem
  status : s'.status = s.status

section
variable {s s' : State} (h : SameMachine s s')
include h

/-! ### What the agreement determines -/

theorem SameMachine.x (i : RegIdx) : s'.x i = s.x i := State.x_congr h.regs i

theorem SameMachine.effAddr (b : RegIdx) (imm16 : Imm16) : effAddr s' b imm16 = effAddr s b imm16 := by
  rw [Machine.effAddr, h.x, Machine.effAddr]

/-- The checks of a step read nothing else. -/
theorem SameMachine.stepCheck : stepCheck s' = stepCheck s := by
  simp only [Machine.stepCheck, fetch_congr h.cfg h.mem h.pc, ownCheck_congr h.cfg h.regs]

/-! ### What keeps it -/

theorem SameMachine.emitSnapshot : SameMachine (emitSnapshot s) (emitSnapshot s') :=
  ⟨h.cfg, h.regs, h.pc, h.mem, h.status⟩

theorem SameMachine.raise (r : Raised) : SameMachine (raise s r) (raise s' r) := ⟨h.cfg, h.regs, h.pc, h.mem, rfl⟩

theorem SameMachine.complete (op : Opcode) (p : Word) : SameMachine (complete op p s) (complete op p s') :=
  ⟨h.cfg, h.regs, rfl, h.mem, h.status⟩

theorem SameMachine.setX (k : RegIdx) (v : Word) : SameMachine (s.setX k v) (s'.setX k v) :=
  ⟨h.cfg, by rw [State.setX_regs, h.regs, State.setX_regs], h.pc, h.mem, h.status⟩

/-- What a completing instruction writes is computed from the shared part. -/
theorem SameMachine.written (i : Instr) : SameMachine (written s i) (written s' i) := by
  cases i with
  | add a b imm16 =>
    simp only [Machine.written, h.x]
    exact h.setX (destOf imm16) _
  | nand a b imm16 =>
    simp only [Machine.written, h.x]
    exact h.setX (destOf imm16) _
  | lw a b imm16 =>
    simp only [Machine.written, h.effAddr, h.mem]
    exact h.setX a _
  | sw a b imm16 =>
    simp only [Machine.written, h.effAddr, h.mem, h.x]
    exact ⟨h.cfg, h.regs, h.pc, rfl, h.status⟩
  | jalr a b imm16 =>
    simp only [Machine.written, State.pc1, h.pc]
    exact h.setX a _
  | halt a b imm16 => exact ⟨h.cfg, h.regs, h.pc, h.mem, rfl⟩
  | beq a b imm16 => exact h
  | noop a b imm16 => exact h

theorem SameMachine.completedStep (w : Word) : SameMachine (completedStep s w) (completedStep s' w) := by
  rw [Machine.completedStep, Machine.completedStep, nextPc_congr h.regs h.pc]
  exact (h.emitSnapshot.written (decode w)).complete _ _

end

/-! ### A step -/

/-- Both counters advance by the same from `s` to `t` as from `s'` to `t'`. -/
def sameIncrements (s t s' t' : State) : Prop :=
  t'.instrCount + s.instrCount = t.instrCount + s'.instrCount ∧
    t'.cycleCount + s.cycleCount = t.cycleCount + s'.cycleCount

theorem sameIncrements_of_uncounted {s t s' t' : State} (h : uncounted s t) (h' : uncounted s' t') :
    sameIncrements s t s' t' := by
  obtain ⟨hinstr, hcycle⟩ := h
  obtain ⟨hinstr', hcycle'⟩ := h'
  rw [sameIncrements, hinstr, hcycle, hinstr', hcycle']
  exact ⟨Nat.add_comm _ _, Nat.add_comm _ _⟩

/-- Under the same cost table the same opcode costs the same. -/
theorem sameIncrements_of_counted {s t s' t' : State} {op : Opcode} (hcfg : s'.cfg = s.cfg) (h : counted op s t)
    (h' : counted op s' t') : sameIncrements s t s' t' := by
  obtain ⟨hinstr, hcycle⟩ := h
  obtain ⟨hinstr', hcycle'⟩ := h'
  rw [sameIncrements, hinstr, hcycle, hinstr', hcycle', hcfg]
  omega

/-- Steps from states that agree, of which the second has a Snapshot that fits, lead to states that agree. -/
theorem SameMachine.step {s s' t : State} (h : SameMachine s s') (hfits : snapshotFits s' = true)
    (hstep : step s = .next t) : ∃ t', step s' = .next t' ∧ SameMachine t t' ∧ sameIncrements s t s' t' ∧
      (s.status = .running → t.status.isError = true → t'.faultInfo = t.faultInfo) := by
  by_cases hrun : s.status = .running
  · have hstep' := step_eq_commit (h.status.trans hrun) hfits
    rw [h.stepCheck] at hstep'
    obtain ⟨r, hcheck, rfl⟩ | ⟨w, hcheck, rfl⟩ := step_running_cases hrun hstep
    · rw [hcheck, commit_error] at hstep'
      exact ⟨_, hstep', h.emitSnapshot.raise r, sameIncrements_of_uncounted ⟨rfl, rfl⟩ ⟨rfl, rfl⟩, fun _ _ => rfl⟩
    · rw [hcheck, commit_ok] at hstep'
      refine ⟨_, hstep', h.completedStep w,
        sameIncrements_of_counted h.cfg (completedStep_counted s w) (completedStep_counted s' w), fun _ herr => ?_⟩
      rw [completedStep_isError hrun] at herr
      cases herr
  · obtain rfl := eq_of_step_of_terminal hrun hstep
    have hterm' : s'.terminal := fun hrun' => hrun (h.status.symm.trans hrun')
    exact ⟨s', step_of_terminal hterm', h, sameIncrements_of_uncounted ⟨rfl, rfl⟩ ⟨rfl, rfl⟩,
      fun hrun' => absurd hrun' hrun⟩

/-- Settles O40: the two steps make the same checks, so both raise the same exception or complete the same word. -/
theorem hostRegistersAreNotRead : Obligations.HostRegistersAreNotRead := by
  intro s s' t hcfg hregs hpc hmem hstatus hfits hstep
  have h : SameMachine s s' := ⟨hcfg, hregs, hpc, hmem, hstatus⟩
  obtain ⟨t', hstep', ht, ⟨hinstr, hcycle⟩, hfault⟩ := h.step (snapshotFits_iff.2 hfits) hstep
  exact ⟨t', hstep', ht.cfg, ht.regs, ht.pc, ht.mem, ht.status, hinstr, hcycle, hfault⟩

end Sys2Proof.Machine
end

section
/-! Bits 31 to 25 of a word are ignored and no other bit is (30_encoding.md R78): decoding and encoding are inverse
between the instructions and the low 25 bits. -/

namespace Sys2Proof

theorem encode_decode (w : Word) : encode (decode w) = w &&& 0x01FFFFFF := enc_decode w

theorem decode_and_mask (w : Word) : decode (w &&& 0x01FFFFFF) = decode w := by
  rw [← encode_decode, decode_encode]

/-- Settles O8: encoding a decoded word gives its low 25 bits, and these decode as the word does. -/
theorem highBitsIgnoredAndNoOthers : Obligations.HighBitsIgnoredAndNoOthers := by
  refine fun w v => ⟨fun h => ?_, fun h => ?_⟩
  · rw [← encode_decode, h, encode_decode]
  · rw [← decode_and_mask, h, decode_and_mask]

end Sys2Proof
end

section
/-! Subtraction by ADD and NAND (41_alu.md section 4). -/

namespace Sys2Proof.Machine

theorem aluY_add_toInt (a b : Word) : (aluY .add a b).toInt = (a.toInt + b.toInt).bmod (2 ^ 32) :=
  BitVec.toInt_add a b

/-- The NAND of a word with itself is its complement. -/
theorem aluY_nand_self (b : Word) : aluY .nand b b = ~~~b := by rw [aluY, BitVec.and_self]

/-- Settles O16: the complement and 1 make the two's complement negation. -/
theorem subtractionFromNandAndAdd : Obligations.SubtractionFromNandAndAdd := by
  refine fun a b => ⟨aluY_add_toInt a b, ?_⟩
  have hneg : ~~~b + 1 = -b := (BitVec.neg_eq_not_add b).symm
  calc aluY .add (aluY .add a (aluY .nand b b)) 1
      = a + ~~~b + 1 := by rw [aluY_nand_self]; rfl
    _ = a + -b := by rw [BitVec.add_assoc, hneg]
    _ = a - b := (sub_eq_add_neg a b).symm

end Sys2Proof.Machine
end

section
/-! Runs: a terminal state is never left (40_execution_cycle.md R98), and a store to the next instruction's address is
what the next step runs (20_memory.md R62). -/

namespace Sys2Proof.Machine

/-- Settles O37, by induction on the number of steps: each answers the same state. -/
theorem terminalStatesAreAbsorbing : Obligations.TerminalStatesAreAbsorbing := by
  intro s n hterm
  induction n with
  | zero => rfl
  | succ n ih => exact (run_succ_of_step Sys2Proof.core n (step_of_terminal hterm)).trans ih

/-- A step whose fetched word is a SW to an address inside the memory completes it. -/
theorem step_of_sw {s : State} {w : Word} {a b : RegIdx} {imm16 : Imm16} (hrun : s.status = .running)
    (hfits : s.usedLen ≤ s.cfg.memSize) (hw : fetch s = .ok w) (hdec : decode w = .sw a b imm16)
    (hin : inMemory s (effAddr s b imm16)) :
    ∃ t, step s = .next t ∧ wordAt t (effAddr s b imm16) = s.x a ∧ t.pc = s.pc + 1 ∧ quiet (emitSnapshot s) t := by
  obtain ⟨-, -, hstore, -⟩ := swStoresWordOrRaises a b imm16 (emitSnapshot s)
  obtain ⟨t, hexec, hword, hpc, -, -, hquiet, -⟩ := hstore hin
  refine ⟨t, ?_, hword, hpc, hquiet⟩
  rw [step_of_fetch hrun (snapshotFits_iff.2 hfits) hw, hdec, hexec]

/-- Settles O41: the SW leaves the stored register at the new pc, and RUNNING and the parameters as they were, so the
next step fetches that word and executes it. -/
theorem storeToNextInstructionIsFetched : Obligations.StoreToNextInstructionIsFetched := by
  intro s w a b imm16 hrun hfits hw hdec haddr hin
  obtain ⟨t, hstep, hword, hpc, hcfg, hused, hstatus, -, -⟩ := step_of_sw hrun hfits hw hdec (by rwa [haddr])
  rw [emitSnapshot_cfg] at hcfg
  rw [emitSnapshot_usedLen] at hused
  have hfetch : fetch t = .ok (s.x a) := by
    rw [fetch_of_inMemory (by rwa [inMemory, hcfg, hpc]), hpc, ← haddr, hword]
  have hfits' : snapshotFits t = true := snapshotFits_iff.2 (by rwa [hcfg, hused])
  exact ⟨t, hstep, hpc, hfetch, step_of_fetch (hstatus.trans hrun) hfits' hfetch⟩

end Sys2Proof.Machine
end
